-- ==== Sys2Proof/Word.lean ====
section
/-! DEFINITION. The one word type of the core: the byte (00_scope.md R7, R10, 20_memory.md R51). -/

namespace Sys2Proof

/-- A byte: 8 bits, unsigned, 0 to 255 (R7, R10). The value field, the count field and the four datapath registers
are bytes; lengths and pointers are natural numbers (R8). -/
abbrev Byte := BitVec 8

/-- `MAXRUN` (R7): the largest count a record can hold, 255. Fixed, not a parameter. -/
def maxRun : Byte := 255#8

/-- `RECLEN` (R7): a record is exactly 2 bytes. -/
def recLen : Nat := 2

end Sys2Proof
end

