-- ==== Sys2Proof/Machine/Codec.lean ====
section
/-! DEFINITION. The two functions of the codec, `enc` and `dec` (00_scope.md R14), and the kinds of encoded buffers. The
step machine does not run them to compute its output; the entries use them for the length of the result alone (launch
duties), and claims are stated through them. -/

namespace Sys2Proof.Machine

/-- `rep(v, c)` (00_scope.md R11). -/
def rep (v : Byte) (c : Byte) : List Byte := List.replicate c.toNat v

/-- `go v c s` of 40_encode.md R101: the output still to come when the open pair is (`v`, `c`) and `s` is unread. -/
def encGo (v c : Byte) : List Byte → List Byte
  | [] => [v, c]
  | x :: s => if x = v ∧ c < maxRun then encGo v (c + 1#8) s else v :: c :: encGo x 1#8 s

/-- `enc` (40_encode.md R101). -/
def enc : List Byte → List Byte
  | [] => []
  | x :: s => encGo x 1#8 s

/-- What a sequence of whole records means (30_encoding.md R81): each value repeated by its count, in order. -/
def expand : List Byte → List Byte
  | v :: c :: s => rep v c ++ expand s
  | _ => []

/-- `dec` (41_decode.md R131); `none` is the error `MalformedInput`, which depends on the length alone. -/
def dec (e : List Byte) : Option (List Byte) :=
  if e.length % 2 = 1 then none else some (expand e)

/-- The records of an encoded buffer, as (value, count) pairs (20_memory.md R57). -/
def records : List Byte → List (Byte × Byte)
  | v :: c :: s => (v, c) :: records s
  | _ => []

/-- The sum of the count bytes (41_decode.md R143). -/
def countSum (e : List Byte) : Nat := ((records e).map fun p => p.2.toNat).sum

/-- Valid encoded buffer (00_scope.md R16): even length, every count byte in 1 to 255. -/
abbrev ValidEncoded (e : List Byte) : Prop :=
  e.length % 2 = 0 ∧ ∀ p ∈ records e, 1 ≤ p.2.toNat ∧ p.2.toNat ≤ 255

/-- The property of 30_encoding.md R84 between neighbouring records: the value changes or the first count is full. -/
def chained : List (Byte × Byte) → Bool
  | [] => true
  | [_] => true
  | p :: q :: t => (p.1 != q.1 || p.2 == maxRun) && chained (q :: t)

/-- Canonical encoded buffer, as 30_encoding.md R84 characterises it. -/
abbrev CanonicalEncoded (e : List Byte) : Prop := ValidEncoded e ∧ chained (records e) = true

end Sys2Proof.Machine
end

