-- ==== Sys2Proof/Config.lean ====
section
/-! DEFINITION. The open parameters of 00_scope.md R8: what a platform fixes and the source leaves open.
Log 4: they are arguments of the model, held in one field of the state that no step writes. Then the free values of the
registers that hold none. -/

namespace Sys2Proof

/-- The named open parameters (00_scope.md R8; 92_eei_decisions.md, "Named parameters left open").
`none` is the reference model in each case: unbounded pointers, no bound on the output room, buffers as plain
sequences with no place in a platform's memory (20_memory.md R52). -/
structure Config where
  /-- `LENW`: width in bits of `ILEN`, `RP` and `WP` (10_state.md R27). -/
  lenw  : Option Nat
  /-- `OCAP`: number of bytes the platform has made available in `OBUF` (70_reset_and_hazards.md R208). -/
  ocap  : Option Nat
  /-- `IBUF_BASE` and `OBUF_BASE`, in this order (20_memory.md R52, R63). -/
  bases : Option (Nat × Nat)
  deriving DecidableEq, Repr

/-- The reference model (R8): nothing is bounded and the bases are dropped. DESIGN CHOICE for the reset state only,
log 4; statements hold for every configuration. -/
def Config.reference : Config := { lenw := none, ocap := none, bases := none }

/-- What reading `CUR` gives while it holds no value (10_state.md R44, 93_implementation_defined.md U5): a free value, one
for each reset. DESIGN CHOICE, log 21. -/
opaque Config.unwrittenCur : Nat → Byte

/-- What reading `VAL` gives while it holds no value, as for `CUR` (log 21). -/
opaque Config.unwrittenVal : Nat → Byte

end Sys2Proof
end

