-- ==== Sys2Proof/Syntax.lean ====
section
/-! DEFINITION. The encoded things of the core, one constructor per row of spec/opcode_table.json (30_encoding.md R88). -/

namespace Sys2Proof

/-- The two formats (30_encoding.md R75, R77; R78: there is no third). -/
inductive Format where
  /-- Format C: the command, one field `MODE` of 1 bit. -/
  | command
  /-- Format P: the pair record, value byte then count byte. -/
  | record
  deriving DecidableEq, Repr

/-- The rows of the opcode table. The eight micro-steps have no encoding (R88) and are no constructors. -/
inductive Instr where
  /-- `ENCODE` (R100): `MODE = 0` at `H_START`; its operand is `ILEN` and `IBUF[0..ILEN)`. -/
  | encode
  /-- `DECODE` (R130): `MODE = 1` at `H_START`; its operand is `ILEN` and `IBUF[0..ILEN)`. -/
  | decode
  /-- `PAIR_ZERO` (R82, R139): the reserved record, any value, count 0. -/
  | pairZero (value : Byte)
  /-- `PAIR` (R75, R133): a record of the encoded buffer, any value, count 1 to 255. -/
  | pair (value count : Byte)
  deriving DecidableEq, Repr

/-- The format a row belongs to (R88, column "format"). -/
def Instr.format : Instr → Format
  | .encode => .command
  | .decode => .command
  | .pairZero _ => .record
  | .pair _ _ => .record

end Sys2Proof
end

