-- ==== Sys2Proof/Machine/State.lean ====
section
/-! DEFINITION. The state of the core (10_state.md R21, whole), the host as the second agent, the faults, the refusals
and the reset state. -/

namespace Sys2Proof.Machine

/-- `MODE` (10_state.md R31): 0 `ENCODE`, 1 `DECODE`. An enumeration, as 93_implementation_defined.md U12 says. -/
inductive Mode where
  | encode | decode
  deriving DecidableEq, Repr

/-- `ST` (10_state.md R34): exactly four values. -/
inductive Status where
  /-- 0: no operation has been started since reset. -/
  | idle
  /-- 1: an operation is in progress. -/
  | run
  /-- 2: the last operation completed; `OBUF[0..OLEN)` is its result. -/
  | done
  /-- 3: the last operation ended with an error; there is no result. -/
  | error
  deriving DecidableEq, Repr

/-- `ERRCODE` (10_state.md R35): one error kind exists (60_exceptions.md R180, R183). -/
inductive ErrCode where
  | none | malformedInput
  deriving DecidableEq, Repr

/-- A byte memory: (index, byte) pairs in strictly rising index order (`Memory.wf`). An index not listed holds no value:
the contents after reset are unspecified (10_state.md R43; log 5). -/
abbrev Memory := List Host.Cell

/-- The six items the host sees (10_state.md R30). -/
inductive Item where
  | mode | ilen | start | st | errcode | olen
  deriving DecidableEq, Repr

/-- The host's actions (42_control.md R160; the read of `IBUF` is the last sentence of R170, log 18). -/
inductive HostMove where
  /-- `H_RESET` (70_reset_and_hazards.md R200). -/
  | reset
  /-- `H_WRITE_MODE(m)` (R161). -/
  | writeMode (m : Mode)
  /-- `H_WRITE_ILEN(n)` (R162). -/
  | writeIlen (n : Nat)
  /-- `H_START` (R163, R164). -/
  | start
  /-- `H_READ(r)` (R165). -/
  | read (r : Item)
  /-- `H_WRITE_IBUF(i, v)` (R170). -/
  | writeIbuf (i : Nat) (v : Byte)
  /-- `H_READ_OBUF(i)` (R170). -/
  | readObuf (i : Nat)
  /-- The host reads `IBUF[i]` (R170: "The host may also read `IBUF`"). -/
  | readIbuf (i : Nat)
  deriving DecidableEq, Repr

/-- Who moves next: "the only freedom in a run is when the host acts" (42_control.md R166). -/
inductive Turn where
  | core
  | act (a : HostMove)
  deriving DecidableEq, Repr

/-- What a read returned to the host; items in the numeric codes of 00_scope.md R9. -/
inductive Answer where
  | item (r : Item) (v : Nat)
  | obuf (i : Nat) (v : Byte)
  | ibuf (i : Nat) (v : Byte)
  deriving DecidableEq, Repr

/-- The second agent (00_scope.md R17), the model's own field, no state of the core: the turns still to come, oldest
first, and what its reads have returned, oldest first. DESIGN CHOICE, logs 2 and 3. When no turn is listed, every
further turn is the core's. -/
structure HostSide where
  moves    : List Turn
  seen     : List Answer
  /-- An operation was started whose end the host has not read in `ST` yet: the interval of 20_memory.md R65 and
  70_reset_and_hazards.md R205, in which the host has no permitted access to the buffers (logs 17, 22). -/
  awaiting : Bool
  deriving DecidableEq, Repr

/-- The eight micro-steps (30_encoding.md R88): selected by guards on the state, not by bits. -/
inductive MicroStep where
  | eOpen | eExtend | eChange | eSplit | eFinal | dRead | dEmit | dFinal
  deriving DecidableEq, Repr

/-- The state: the table of 10_state.md R21, then the parameters (log 4), the second agent (log 2) and the index of the
free values (log 21). `none` in `mode`, `ilen`, `cur`, `val` is the spec's own "holds no value" (R43, R44; log 1). -/
structure State where
  /-- `MODE` (R31). -/
  mode    : Option Mode
  /-- `ILEN` (R32). -/
  ilen    : Option Nat
  /-- `ST` (R34). -/
  st      : Status
  /-- `ERRCODE` (R35). -/
  errcode : ErrCode
  /-- `RP` (R26): index in `IBUF` of the next byte not yet consumed. -/
  rp      : Nat
  /-- `WP` (R28), read by the host as `OLEN` (R36). -/
  wp      : Nat
  /-- `CUR` (R22): value of the open pair; with none open, the byte it held last, which no step reads (log 24). -/
  cur     : Option Byte
  /-- `CNT` (R23): count of the open pair, 0 when none is open. -/
  cnt     : Byte
  /-- `VAL` (R24): value of the pair being expanded; with no copy left, the byte it held last, which no step reads
  (log 24). -/
  val     : Option Byte
  /-- `REM` (R25): copies of `VAL` still to be written. -/
  rem     : Byte
  /-- `IBUF` (R40): the input buffer. -/
  ibuf    : Memory
  /-- `OBUF` (R40): the output buffer, bytes beyond `OLEN` included (log 7). -/
  obuf    : Memory
  /-- `LENW`, `OCAP`, `IBUF_BASE`, `OBUF_BASE` (00_scope.md R8; log 4). -/
  cfg     : Config
  /-- The host's side (logs 2, 3, 22). -/
  host    : HostSide
  /-- How many resets there have been: which free value an unwritten `CUR` or `VAL` reads as. The model's own (log 21). -/
  resets  : Nat
  deriving DecidableEq, Repr

/-- Why the machine stops where the spec gives no step. Each is raised only in a state that no run from a launch
reaches (log 12); `MalformedInput` is none of these, it is a next state with `ST = ERROR` (60_exceptions.md R186). -/
inductive Fault where
  /-- Raised by the core's turn when `ST = RUN` and no guard of 42_control.md R166 holds. Safe: the model stops. -/
  | noStepEnabled
  /-- Raised by the core's turn, or by a meaning, that would read an `IBUF` byte nothing has written
  (log 5). Safe: the model stops. -/
  | unwrittenInput (i : Nat)
  /-- Raised by the host's read of a result byte nothing has written. Safe: the model stops. -/
  | unwrittenOutput (i : Nat)
  /-- Raised by `D_READ` when only one byte of the record stands below `ILEN`; the parity check of the entry excludes it
  (41_decode.md R133). Safe: the model stops. -/
  | truncatedRecord
  /-- Raised by a meaning in a state that does not select it: another `MODE`, or a guard of `D_READ` that does not
  hold. The step never runs a meaning there. Safe: the model stops. -/
  | notSelected
  deriving DecidableEq, Repr

/-- What the model gives no meaning ("refused"): where the spec says so, or an instruction not reached yet. -/
inductive Refusal where
  /-- Raised by an arm of exec whose instruction has no meaning yet. Safe: the model stops. -/
  | notModelled (mnemonic : String)
  /-- Raised by `H_START` while `MODE` holds no value: "refused, not as a start with zero" (10_state.md R44;
  70_reset_and_hazards.md R203). Safe. -/
  | modeUnwritten
  /-- Raised by `H_START`, at the entry, while `ILEN` holds no value: "refused, not as a start with zero" (10_state.md
  R44; 70_reset_and_hazards.md R203). Safe. -/
  | ilenUnwritten
  /-- Raised by a host read of `MODE` or `ILEN`, `r`, while it holds no value: "`refuse`" (93_implementation_defined.md
  U5, which names `H_READ`; 92_eei_decisions.md D17). Safe. -/
  | itemUnwritten (r : Item)
  /-- Raised by an entry when the host has never written some byte of `IBUF[0..ILEN)` (R168 H1), an odd `DECODE`
  included (log 6); a write before an `H_RESET` counts (log 23). Safe. -/
  | inputUnwritten
  /-- Raised by an entry whose `ILEN` or final `OLEN`, by a write of `ILEN` whose value, or by an access to `IBUF`
  whose index does not fit `LENW` (R27, R51, R162, R209). Safe. -/
  | pointerWidth
  /-- Raised by an entry whose result does not fit `OCAP` (R193, R208). Safe. -/
  | outputRoom
  /-- Raised by an entry when `IBUF[0..ILEN)` and `OBUF[0..OCAP)` overlap (R207). Safe. -/
  | buffersOverlap
  /-- Raised by a host access to a buffer from `H_START` until the host has read `ST = DONE` or `ST = ERROR` (R65, R168
  H2, H3, R170, R205, R206; logs 17, 22). Safe. -/
  | bufferInUse
  /-- Raised by a host read of an `OBUF` byte that is no result byte: `ST` is not `DONE`, or the index is not below
  `OLEN` (R168 H3, R170, R210). Safe. -/
  | notAResult
  /-- Raised by a host read of an `IBUF` byte nothing has written (R43; log 18). Safe. -/
  | ibufUnwritten (i : Nat)
  /-- Raised by a host read of `START`, which is a command (R33; U9). Safe. -/
  | startNotReadable
  deriving DecidableEq, Repr

/-- The state after power-on: 10_state.md R43 for the core; nothing listed in either memory (log 5); the reference
parameters (log 4); a host with no turn listed and no operation started (logs 2, 22); no reset counted (log 21). -/
def State.reset : State where
  mode := none
  ilen := none
  st := .idle
  errcode := .none
  rp := 0
  wp := 0
  cur := none
  cnt := 0#8
  val := none
  rem := 0#8
  ibuf := []
  obuf := []
  cfg := Config.reference
  host := { moves := [], seen := [], awaiting := false }
  resets := 0

end Sys2Proof.Machine
end

