-- ==== Sys2Proof/Machine/Ops.lean ====
section
/-! DEFINITION. The shared operations: reading and writing a byte memory, the emitters, the error entry, and the numeric
codes of the control and status items. -/

namespace Sys2Proof.Machine

/-- The canonical form of a memory: indices strictly rising, so no index twice. -/
abbrev Memory.wf (m : Memory) : Prop := m.Pairwise fun a b => a.1 < b.1

/-- The byte at an index, `none` where nothing has been written (log 5). No side effect (20_memory.md R62). -/
def Memory.read : Memory → Nat → Option Byte
  | [], _ => none
  | (a, b) :: t, i => if a = i then some b else Memory.read t i

/-- Store a byte, keeping the canonical form. Every access moves exactly one byte (20_memory.md R61). -/
def Memory.write : Memory → Nat → Byte → Memory
  | [], i, v => [(i, v)]
  | (a, b) :: t, i, v =>
    if i < a then (i, v) :: (a, b) :: t
    else if i = a then (i, v) :: t
    else (a, b) :: Memory.write t i v

/-- The `n` bytes from index `i` on, `none` if one of them has no value. -/
def Memory.bytesFrom (m : Memory) : Nat → Nat → Option (List Byte)
  | _, 0 => some []
  | i, n + 1 =>
    match m.read i, Memory.bytesFrom m (i + 1) n with
    | some b, some l => some (b :: l)
    | _, _ => none

/-- `m[0..n)` (00_scope.md R11), `none` if one of the bytes has no value. -/
def Memory.bytes (m : Memory) (n : Nat) : Option (List Byte) := m.bytesFrom 0 n

/-- The pair emitter (40_encode.md R105 to R107): value, then count, then `WP` moves past them (20_memory.md R54, R57);
both byte writes are one atomic step (R61). -/
def emitPair (v c : Byte) (s : State) : State :=
  { s with obuf := (s.obuf.write s.wp v).write (s.wp + 1) c, wp := s.wp + 2 }

/-- The run expander's write (41_decode.md R134): one byte at `WP`, then `WP` moves past it. -/
def emitByte (v : Byte) (s : State) : State :=
  { s with obuf := s.obuf.write s.wp v, wp := s.wp + 1 }

/-- `raise MalformedInput` (60_exceptions.md R186): the machine's one exception, taken whole. No control is
transferred, nothing is saved, no byte of either memory is touched. There is no return from it (R187): the next
`H_START` or `H_RESET` leaves `ERROR`. -/
def raiseMalformedInput (s : State) : State :=
  { s with st := .error, errcode := .malformedInput, wp := 0, rp := 0, rem := 0#8 }

/-- The code of `MODE` (00_scope.md R9). -/
def Mode.code : Mode → Byte
  | .encode => 0#8
  | .decode => 1#8

/-- The code of `ST` (00_scope.md R9). -/
def Status.code : Status → Nat
  | .idle => 0
  | .run => 1
  | .done => 2
  | .error => 3

/-- The code of `ERRCODE` (00_scope.md R9). -/
def ErrCode.code : ErrCode → Nat
  | .none => 0
  | .malformedInput => 1

/-- The reference number of a control or status item (10_state.md R30). -/
def Item.number : Item → Nat
  | .mode => 0
  | .ilen => 1
  | .start => 2
  | .st => 3
  | .errcode => 4
  | .olen => 5

/-- Record what a read returned to the host. -/
def State.answer (s : State) (a : Answer) : State :=
  { s with host := { s.host with seen := s.host.seen ++ [a] } }

/-- `H_START` has begun an operation: from here the host awaits its end (70_reset_and_hazards.md R205; log 22). -/
def State.awaitEnd (s : State) : State := { s with host := { s.host with awaiting := true } }

/-- The host has read `ST`: if it was `DONE` or `ERROR`, it has observed the end (20_memory.md R65 (b); log 22). -/
def State.seeStatus (s : State) : State :=
  if s.st = .done ∨ s.st = .error then { s with host := { s.host with awaiting := false } } else s

/-- Whose turn it is, and the state with that turn taken off the list (logs 2, 16). -/
def State.turn (s : State) : Turn × State :=
  match s.host.moves with
  | [] => (.core, s)
  | t :: ts => (t, { s with host := { s.host with moves := ts } })

end Sys2Proof.Machine
end

