-- ==== Sys2Proof/Machine/Operands.lean ====
section
/-! DEFINITION. The operand forms: the implied operand of a command, the byte and the record under `RP` (20_memory.md R55,
"pointer, then advance"), the result, and the limits a platform's parameters put on them. -/

namespace Sys2Proof.Machine

/-- The operand of a command, `IBUF[0..ILEN)` (30_encoding.md R77), `none` if the host has never written some byte of it;
a byte written before an `H_RESET` counts as written (log 23). -/
def State.input (s : State) (n : Nat) : Option (List Byte) := s.ibuf.bytes n

/-- `OBUF[0..OLEN)` (42_control.md R167). -/
def State.out (s : State) : Option (List Byte) := s.obuf.bytes s.wp

/-- `IBUF[RP]`, the scanner's operand (40_encode.md R103 to R106). -/
def State.peek (s : State) : Option Byte := s.ibuf.read s.rp

/-- `CUR` as a step reads it (40_encode.md R104 to R107): its value, and while it holds none, which no run from a launch
comes to (10_state.md R44), a free value (log 21). -/
def State.curByte (s : State) : Byte := s.cur.getD (Config.unwrittenCur s.resets)

/-- `VAL` as `D_EMIT` reads it (41_decode.md R134), as for `CUR` (log 21). -/
def State.valByte (s : State) : Byte := s.val.getD (Config.unwrittenVal s.resets)

/-- The bytes of the record under `RP` that stand below `ILEN`: two of them in every reachable state of a `DECODE`
(41_decode.md R133). -/
def State.recordBytes (s : State) (n : Nat) : Except Fault (List Byte) :=
  match s.ibuf.read s.rp with
  | none => .error (.unwrittenInput s.rp)
  | some v =>
    if s.rp + 1 < n then
      match s.ibuf.read (s.rp + 1) with
      | none => .error (.unwrittenInput (s.rp + 1))
      | some c => .ok [v, c]
    else .ok [v]

/-- A length or pointer value that `LENW` bits can hold (10_state.md R27). -/
def fitsWidth (c : Config) (n : Nat) : Bool :=
  match c.lenw with
  | none => true
  | some w => decide (n < 2 ^ w)

/-- A result length that `OCAP` has room for (70_reset_and_hazards.md R208). -/
def fitsRoom (c : Config) (len : Nat) : Bool :=
  match c.ocap with
  | none => true
  | some k => decide (len ≤ k)

/-- `IBUF[0..n)` and `OBUF[0..OCAP)` share a byte of the platform's memory (70_reset_and_hazards.md R207). Without bases
the buffers are distinct sequences and never do (20_memory.md R52). -/
def buffersOverlap (c : Config) (n : Nat) : Bool :=
  match c.bases with
  | none => false
  | some (ib, ob) =>
    match c.ocap with
    | none => decide (0 < n ∧ ob < ib + n)
    | some k => decide (0 < n ∧ 0 < k ∧ ib < ob + k ∧ ob < ib + n)

/-- The first launch checks of an entry and its operand: refused where a host duty is broken, `ILEN` unwritten (10_state.md
R44), a length beyond `LENW` (R27, R209), overlapping buffers (R207), input not all written (42_control.md R168 H1);
otherwise the entry runs on `ILEN` and `IBUF[0..ILEN)`. Which refusal comes first is the model's choice (log 10). -/
def withOperand (s : State) (entry : Nat → List Byte → Host.Outcome State Fault Refusal) :
    Host.Outcome State Fault Refusal :=
  match s.ilen with
  | none => .refused .ilenUnwritten
  | some n =>
    if !fitsWidth s.cfg n then .refused .pointerWidth
    else if buffersOverlap s.cfg n then .refused .buffersOverlap
    else
      match s.input n with
      | none => .refused .inputUnwritten
      | some x => entry n x

/-- The last launch check of an entry: the result must fit `LENW` and `OCAP` (R27, R208, R209), else the model refuses
the run; the core itself checks neither (60_exceptions.md R193). -/
def launch (len : Nat) (s : State) : Host.Outcome State Fault Refusal :=
  if !fitsWidth s.cfg len then .refused .pointerWidth
  else if !fitsRoom s.cfg len then .refused .outputRoom
  else .next s

end Sys2Proof.Machine
end

