-- ==== Sys2Proof/Machine/Flags.lean ====
section
/-! DEFINITION. The predicates of 10_state.md R38, computed at the moment of the step and stored nowhere, and the guards
of the eight micro-steps made from them. -/

namespace Sys2Proof.Machine

/-- `more`: `RP < ILEN` (R38). -/
def State.more (s : State) : Bool :=
  match s.ilen with
  | none => false
  | some n => decide (s.rp < n)

/-- `RP = ILEN` (40_encode.md R107, 41_decode.md R135). -/
def State.exhausted (s : State) : Bool := s.ilen == some s.rp

/-- `open`: `CNT != 0`, a pair is open (R38). -/
def State.pairOpen (s : State) : Bool := s.cnt != 0#8

/-- `same`: `IBUF[RP] = CUR` (R38); no answer where the byte of `IBUF` holds no value. -/
def State.same (s : State) : Option Bool :=
  match s.peek with
  | some x => some (x == s.curByte)
  | none => none

/-- `full`: `CNT = 255` (R38). -/
def State.full (s : State) : Bool := s.cnt == maxRun

/-- `odd`: `ILEN mod 2 = 1` (R38), the lowest bit of `ILEN` (41_decode.md R148). -/
def oddLength (n : Nat) : Bool := n % 2 == 1

/-- `pending`: `REM != 0` (R38). -/
def State.pending (s : State) : Bool := s.rem != 0#8

/-- `ST = RUN` and `MODE = m`: the part every guard begins with. -/
def State.running (s : State) (m : Mode) : Bool := s.st == .run && s.mode == some m

/-- The guard of each micro-step, as its rule gives it (40_encode.md R103 to R107, 41_decode.md R133 to R135). -/
def MicroStep.guard : MicroStep → State → Bool
  | .eOpen, s => s.running .encode && s.more && !s.pairOpen
  | .eExtend, s => s.running .encode && s.more && s.pairOpen && s.same == some true && !s.full
  | .eChange, s => s.running .encode && s.more && s.pairOpen && s.same == some false
  | .eSplit, s => s.running .encode && s.more && s.full && s.same == some true
  | .eFinal, s => s.running .encode && s.exhausted
  | .dRead, s => s.running .decode && !s.pending && s.more
  | .dEmit, s => s.running .decode && s.pending
  | .dFinal, s => s.running .decode && !s.pending && s.exhausted

/-- The eight micro-steps, in the order of the spec's index. -/
def MicroStep.all : List MicroStep :=
  [.eOpen, .eExtend, .eChange, .eSplit, .eFinal, .dRead, .dEmit, .dFinal]

/-- The micro-step whose guard holds; at most one does (42_control.md R166). -/
def State.enabled (s : State) : Option MicroStep := MicroStep.all.find? fun m => m.guard s

end Sys2Proof.Machine
end

