-- ==== Sys2Proof/Machine/DecodeOp.lean ====
section
/-! DEFINITION. The `DECODE` operation: its entry with the parity check (the meaning of the command) and the steps
`D_EMIT` and `D_FINAL` (41_decode.md). `D_READ` stands in Record.lean: it is what reading a record does. -/

namespace Sys2Proof.Machine

/-- What the entry of `DECODE` writes when `ILEN` is even, all together (41_decode.md R132). -/
def decodeEntry (s : State) : State :=
  { s with st := .run, errcode := .none, rp := 0, wp := 0, rem := 0#8 }

/-- `DECODE`: the effect of `H_START` with `MODE = 1`. While `ST = RUN` it has none (42_control.md R164); otherwise it is
the entry (R132, R163): an odd `ILEN` raises `MalformedInput`, whatever the bytes (60_exceptions.md R181), and needs no
output room (R208); an even one starts the operation. Refused where a host duty is broken, as for `ENCODE`: the input
must be written whatever its length (R168 H1; log 6). -/
def execDecode (s : State) : Host.Outcome State Fault Refusal :=
  if s.st = .run then .next s
  else if s.mode ≠ some .decode then .fault .notSelected
  else withOperand s fun n e =>
    if oddLength n then .next (raiseMalformedInput s) else launch (expand e).length (decodeEntry s)

/-- `D_EMIT` (R134): one byte of the expansion. -/
def dEmit (s : State) : Host.Outcome State Fault Refusal :=
  .next { emitByte s.valByte s with rem := s.rem - 1#8 }

/-- `D_FINAL` (R135): every record read and expanded; the operation ends. `VAL` is unchanged, as R135 says, and keeps its
byte although U5 says it then holds no value (the model's reading, log 24). -/
def dFinal (s : State) : Host.Outcome State Fault Refusal := .next { s with st := .done }

end Sys2Proof.Machine
end

