-- ==== Sys2Proof/Machine/EncodeOp.lean ====
section
/-! DEFINITION. The `ENCODE` operation: its entry (the meaning of the command) and its five steps (40_encode.md). -/

namespace Sys2Proof.Machine

/-- What the entry of `ENCODE` writes, all together (40_encode.md R102). -/
def encodeEntry (s : State) : State :=
  { s with st := .run, errcode := .none, rp := 0, wp := 0, cnt := 0#8 }

/-- `ENCODE`: the effect of `H_START` with `MODE = 0`. While `ST = RUN` it has none (42_control.md R164); otherwise it is
the entry (R102, R163), refused where a host duty is broken (`withOperand`) or the result does not fit (R208, R209). -/
def execEncode (s : State) : Host.Outcome State Fault Refusal :=
  if s.st = .run then .next s
  else if s.mode ≠ some .encode then .fault .notSelected
  else withOperand s fun _ b => launch (enc b).length (encodeEntry s)

/-- `E_OPEN` (R103): take the first byte. -/
def eOpen (s : State) : Host.Outcome State Fault Refusal :=
  match s.peek with
  | none => .fault (.unwrittenInput s.rp)
  | some x => .next { s with cur := some x, cnt := 1#8, rp := s.rp + 1 }

/-- `E_EXTEND` (R104): the same byte, counted. -/
def eExtend (s : State) : Host.Outcome State Fault Refusal :=
  .next { s with cnt := s.cnt + 1#8, rp := s.rp + 1 }

/-- The effect that `E_CHANGE` and `E_SPLIT` share (R105, R106): the pair of before the step is written, and the byte just
read starts a new one (90_conflicts.md C1). -/
def flushAndRestart (s : State) : Host.Outcome State Fault Refusal :=
  match s.peek with
  | some x => .next { emitPair s.curByte s.cnt s with cur := some x, cnt := 1#8, rp := s.rp + 1 }
  | none => .fault (.unwrittenInput s.rp)

/-- `E_CHANGE` (R105): a different byte. -/
def eChange (s : State) : Host.Outcome State Fault Refusal := flushAndRestart s

/-- `E_SPLIT` (R106): the same byte with the count full, never wrapped (R108). -/
def eSplit (s : State) : Host.Outcome State Fault Refusal := flushAndRestart s

/-- `E_FINAL` (R107): input exhausted; the open pair, if there is one, is written and the operation ends. `CUR` is
unchanged, in R107's words: it keeps its byte and does not become `none`, although R22 and U5 say it then holds no value
(the model's reading, log 24). -/
def eFinal (s : State) : Host.Outcome State Fault Refusal :=
  if s.cnt = 0#8 then .next { s with cnt := 0#8, st := .done }
  else .next { emitPair s.curByte s.cnt s with cnt := 0#8, st := .done }

end Sys2Proof.Machine
end

