-- ==== Sys2Proof/Machine/Record.lean ====
section
/-! DEFINITION. The meaning of a record: `D_READ` (41_decode.md R133). The record's expansion is the `D_EMIT` steps that
follow (R134, R136). -/

namespace Sys2Proof.Machine

/-- `D_READ` of the record (`v`, `c`) under `RP` (R133): the pair reader loads `VAL` and `REM` and moves past it. The
count is taken as it stands, 0 to 255 (30_encoding.md R79). Its guard is part of it; `RP` never passes `ILEN`
(10_state.md R26). -/
def readRecord (v c : Byte) (s : State) : Host.Outcome State Fault Refusal :=
  if !MicroStep.guard .dRead s then .fault .notSelected
  else
    match s.ilen with
    | none => .fault .notSelected
    | some n =>
      if s.rp + 1 < n then .next { s with val := some v, rem := c, rp := s.rp + 2 }
      else .fault .truncatedRecord

/-- `PAIR` (R133): `VAL` and `REM` take the record; `count` `D_EMIT` steps will expand it. -/
def execPair (value count : Byte) (s : State) : Host.Outcome State Fault Refusal := readRecord value count s

/-- `PAIR_ZERO` (R139): the record is consumed, `REM` stays 0, so no `D_EMIT` follows and no byte is written; no error
(decision D13; log 14). -/
def execPairZero (value : Byte) (s : State) : Host.Outcome State Fault Refusal := readRecord value 0#8 s

end Sys2Proof.Machine
end

