-- ==== Sys2Proof/WellFormed.lean ====
section
/-! DEFINITION. Which terms of `Instr` stand for an encoding of the hardware. -/

namespace Sys2Proof

/-- The one constraint of the opcode table: `PAIR` has `count != 0`, a record with count 0 being the row `PAIR_ZERO`
(30_encoding.md R75, R82, R88). Every value byte is legal (R80) and both commands are defined (R86). -/
def Instr.wellFormed : Instr → Bool
  | .encode => true
  | .decode => true
  | .pairZero _ => true
  | .pair _ count => count != 0#8

end Sys2Proof
end

