-- ==== Sys2Proof/Decode.lean ====
section
/-! DEFINITION. From bits to instructions and back: the decoder (total, rejecting by name), the encoder, the stream of
records of an encoded buffer, and the host's view of a table row (30_encoding.md, opcode_table.json). -/

namespace Sys2Proof

/-- Why the decoder rejects. No value of a complete field is rejected: both `MODE` values are defined (R86) and the two
record rows cover all 65 536 records (R88). -/
inductive DecodeError where
  /-- No byte of the command, or no byte of the record, is there. -/
  | nothingThere
  /-- A number that the 1-bit field `MODE` cannot hold (93_implementation_defined.md U12: cannot occur). -/
  | notOneBit
  /-- One byte only: a record cut in half (R83). -/
  | truncatedRecord
  deriving DecidableEq, Repr

/-- A record from its two bytes, in stream order value then count (R75). `PAIR_ZERO` is tried first (R88). -/
def recordOf (value count : Byte) : Instr :=
  if count = 0#8 then .pairZero value else .pair value count

/-- The decoder: the next instruction of the given format, and the bytes after it. For a command the byte holds the
1-bit field `MODE` in bit 0 (R77); a record is always 2 bytes (R75, R87). -/
def decode : Format → List Byte → Except DecodeError (Instr × List Byte)
  | .command, [] => .error .nothingThere
  | .command, b :: rest =>
    if b = 0#8 then .ok (.encode, rest)
    else if b = 1#8 then .ok (.decode, rest)
    else .error .notOneBit
  | .record, [] => .error .nothingThere
  | .record, [_] => .error .truncatedRecord
  | .record, value :: count :: rest => .ok (recordOf value count, rest)

/-- The encoder, from the same tables: `MODE` 0 is `ENCODE`, 1 is `DECODE` (R77); a record is value then count (R75). -/
def encode : Instr → List Byte
  | .encode => [0#8]
  | .decode => [1#8]
  | .pairZero value => [value, 0#8]
  | .pair value count => [value, count]

/-- The records of an encoded buffer, first to last (R57, R76): record `k` stands at indices `2k` and `2k + 1`, nothing
between, nothing after. A dangling byte is the one illegal encoding (R83). -/
def decodeStream : List Byte → Except DecodeError (List Instr)
  | [] => .ok []
  | [_] => .error .truncatedRecord
  | value :: count :: rest =>
    match decodeStream rest with
    | .ok is => .ok (recordOf value count :: is)
    | .error e => .error e

/-- The encoded buffer of a list of records (R76). -/
def encodeStream : List Instr → List Byte
  | [] => []
  | i :: is => encode i ++ encodeStream is

/-- The instruction of a complete byte string, nothing left over. -/
def decodeWhole (f : Format) (bytes : List Byte) : Option Instr :=
  match decode f bytes with
  | .ok (i, []) => some i
  | .ok (_, _ :: _) => none
  | .error _ => none

/-- The host's question about a row of opcode_table.json. A row of up to 8 bits is a command (format C), laid out as
one byte. A row of 16 bits is a record (format P), numbered as the table numbers it, `value * 256 + count`, and laid
out in stream order: the value byte first (20_memory.md R58; log 13). -/
def decodeTableWord (nbits w : Nat) : Option Instr :=
  if nbits ≤ 8 then
    if w < 256 then decodeWhole .command [BitVec.ofNat 8 w] else none
  else if nbits ≤ 16 then
    if w < 65536 then decodeWhole .record [BitVec.ofNat 8 (w / 256), BitVec.ofNat 8 w] else none
  else none

end Sys2Proof
end

