-- ==== Sys2Proof/Machine/HostActions.lean ====
section
/-! DEFINITION. What each host action other than `H_START` does (42_control.md R160 to R165, R170;
70_reset_and_hazards.md R200). -/

namespace Sys2Proof.Machine

/-- `H_RESET` (R200): in any state, every register at the value of 10_state.md R43; the memories are not touched. A
running operation ends without a result (R202), so the host awaits none (log 22); a new free value stands for `CUR` and
`VAL` (log 21). DESIGN CHOICE, log 23: the bytes of `IBUF` written before the reset still count as written for the next
launch (42_control.md R168 H1), which R43 ("unspecified; not touched by reset") and R203 leave open. -/
def hReset (s : State) : State :=
  { State.reset with
    ibuf := s.ibuf
    obuf := s.obuf
    cfg := s.cfg
    host := { s.host with awaiting := false }
    resets := s.resets + 1 }

/-- `H_WRITE_MODE(m)` (R161); no effect while `ST = RUN` (10_state.md R37). -/
def hWriteMode (m : Mode) (s : State) : Host.Outcome State Fault Refusal :=
  if s.st = .run then .next s else .next { s with mode := some m }

/-- `H_WRITE_ILEN(n)` (R162); a value beyond `LENW` cannot be written and is refused, in `RUN` too (log 9); otherwise no
effect while `ST = RUN` (10_state.md R37). -/
def hWriteIlen (n : Nat) (s : State) : Host.Outcome State Fault Refusal :=
  if !fitsWidth s.cfg n then .refused .pointerWidth
  else if s.st = .run then .next s
  else .next { s with ilen := some n }

/-- `H_READ(r)` (R165): the current value, in the codes of 00_scope.md R9; the core is not changed, and a read of `ST` may
show the host the end of its operation (20_memory.md R65). `MODE` or `ILEN` unwritten, and `START`, are refused
(93_implementation_defined.md U5, U9; log 8). -/
def hRead (r : Item) (s : State) : Host.Outcome State Fault Refusal :=
  match r with
  | .mode =>
    match s.mode with
    | none => .refused (.itemUnwritten .mode)
    | some m => .next (s.answer (.item .mode m.code.toNat))
  | .ilen =>
    match s.ilen with
    | none => .refused (.itemUnwritten .ilen)
    | some n => .next (s.answer (.item .ilen n))
  | .start => .refused .startNotReadable
  | .st => .next (s.answer (.item .st s.st.code)).seeStatus
  | .errcode => .next (s.answer (.item .errcode s.errcode.code))
  | .olen => .next (s.answer (.item .olen s.wp))

/-- The buffers are the core's: an operation runs, or it has ended and the host has not read so in `ST`. R168 H2, H8 and
R170 speak of `ST = RUN` alone; 20_memory.md R65 and 70_reset_and_hazards.md R205, R206 go on until the host has read
`ST = DONE` or `ST = ERROR`, and the model takes the longer interval, for every index of either buffer. DESIGN CHOICE,
log 22. -/
def State.buffersHeld (s : State) : Bool := s.st == .run || s.host.awaiting

/-- `H_WRITE_IBUF(i, v)` (R170), permitted only when the buffers are the host's (R65, R168 H2, R205; the model's reading,
logs 19, 22). An index beyond `LENW` does not exist (20_memory.md R51; log 20). -/
def hWriteIbuf (i : Nat) (v : Byte) (s : State) : Host.Outcome State Fault Refusal :=
  if s.buffersHeld then .refused .bufferInUse
  else if !fitsWidth s.cfg i then .refused .pointerWidth
  else .next { s with ibuf := s.ibuf.write i v }

/-- `H_READ_OBUF(i)` (R170): permitted only after the host has read the end of the operation (R65, R168 H3, R206; logs 17,
22), and a result byte only when `ST = DONE` and `i < OLEN`; every other byte is unreadable (R210; log 8). -/
def hReadObuf (i : Nat) (s : State) : Host.Outcome State Fault Refusal :=
  if s.buffersHeld then .refused .bufferInUse
  else if s.st = .done ∧ i < s.wp then
    match s.obuf.read i with
    | none => .fault (.unwrittenOutput i)
    | some v => .next (s.answer (.obuf i v))
  else .refused .notAResult

/-- The host's read of `IBUF[i]` (R170, last sentence), when the buffers are the host's (20_memory.md R65; the model's
reading, logs 18, 22). -/
def hReadIbuf (i : Nat) (s : State) : Host.Outcome State Fault Refusal :=
  if s.buffersHeld then .refused .bufferInUse
  else if !fitsWidth s.cfg i then .refused .pointerWidth
  else
    match s.ibuf.read i with
    | none => .refused (.ibufUnwritten i)
    | some v => .next (s.answer (.ibuf i v))

end Sys2Proof.Machine
end

