-- ==== Sys2Proof/Machine/Fetch.lean ====
section
/-! DEFINITION. What the next turn is: an instruction to run (a command sampled at `H_START`, or a record the pair reader
takes from `IBUF`), or something with no encoding (a host action, a micro-step, a core with nothing to do). -/

namespace Sys2Proof.Machine

/-- What a turn comes to. -/
inductive Fetched where
  /-- An instruction, and the state it runs at. -/
  | instr (i : Instr) (s : State)
  /-- Anything else, with its outcome. -/
  | other (o : Host.Outcome State Fault Refusal)
  deriving Repr

/-- The fault a decoder's rejection comes to; the parity check of `DECODE` and the width of `MODE` exclude all of them
in a run (log 12). -/
def rejected : DecodeError → Fault
  | .nothingThere => .notSelected
  | .notOneBit => .notSelected
  | .truncatedRecord => .truncatedRecord

/-- `H_START`: nothing while `ST = RUN` (42_control.md R164); refused while `MODE` holds no value (10_state.md R44);
otherwise the command is the instruction that `MODE` encodes (30_encoding.md R77), and the host awaits its end
(70_reset_and_hazards.md R205; log 22). -/
def fetchCommand (s : State) : Fetched :=
  if s.st = .run then .other (.next s)
  else
    match s.mode with
    | none => .other (.refused .modeUnwritten)
    | some m =>
      match decode .command [m.code] with
      | .ok (i, _) => .instr i s.awaitEnd
      | .error e => .other (.fault (rejected e))

/-- The pair reader's fetch: the record under `RP`, read afresh from `IBUF` (20_memory.md R57, R68). -/
def fetchRecord (n : Nat) (s : State) : Fetched :=
  match s.recordBytes n with
  | .error f => .other (.fault f)
  | .ok bytes =>
    match decode .record bytes with
    | .ok (i, _) => .instr i s
    | .error e => .other (.fault (rejected e))

/-- Why no guard holds although `ST = RUN`; no run reaches such a state (42_control.md R166; log 12). -/
def stuck (s : State) : Fault :=
  if s.running .encode && s.more && s.pairOpen then
    match s.peek with
    | none => .unwrittenInput s.rp
    | some _ => .noStepEnabled
  else .noStepEnabled

/-- The core's turn: the one enabled step (42_control.md R166). In `IDLE`, `DONE` and `ERROR` no step is enabled and all
state is kept (60_exceptions.md R191; log 15). -/
def fetchCore (s : State) : Fetched :=
  if s.st ≠ .run then .other (.next s)
  else
    match s.enabled, s.ilen with
    | some .eOpen, _ => .other (eOpen s)
    | some .eExtend, _ => .other (eExtend s)
    | some .eChange, _ => .other (eChange s)
    | some .eSplit, _ => .other (eSplit s)
    | some .eFinal, _ => .other (eFinal s)
    | some .dEmit, _ => .other (dEmit s)
    | some .dFinal, _ => .other (dFinal s)
    | some .dRead, some n => fetchRecord n s
    | some .dRead, none => .other (.fault .noStepEnabled)
    | none, _ => .other (.fault (stuck s))

/-- The host's turn (42_control.md R160). -/
def fetchHost (a : HostMove) (s : State) : Fetched :=
  match a with
  | .reset => .other (.next (hReset s))
  | .writeMode m => .other (hWriteMode m s)
  | .writeIlen n => .other (hWriteIlen n s)
  | .start => fetchCommand s
  | .read r => .other (hRead r s)
  | .writeIbuf i v => .other (hWriteIbuf i v s)
  | .readObuf i => .other (hReadObuf i s)
  | .readIbuf i => .other (hReadIbuf i s)

/-- The next turn, host's or core's, taken off the list. -/
def fetch (s : State) : Fetched :=
  match s.turn with
  | (.core, s') => fetchCore s'
  | (.act a, s') => fetchHost a s'

/-- Put the command `m` where the next step samples it: `MODE` holds it, `ILEN` holds a value (its own, or 0 where it has
none), no operation is running, and the next turn is `H_START` (log 11). -/
def placeCommand (m : Mode) (s : State) : State :=
  { s with
    mode := some m
    ilen := some (s.ilen.getD 0)
    st := if s.st = .run then .done else s.st
    host := { s.host with moves := .act .start :: s.host.moves } }

/-- Put the record (`v`, `c`) where the next step reads it: at `RP` of a running `DECODE` with no copy left to write and
at least that record still to read, its end awaited, the next turn being the core's (log 11). -/
def placeRecord (v c : Byte) (s : State) : State :=
  { s with
    mode := some .decode
    ilen := some (s.rp + 2)
    st := .run
    errcode := .none
    rem := 0#8
    ibuf := (s.ibuf.write s.rp v).write (s.rp + 1) c
    host := { s.host with moves := .core :: s.host.moves, awaiting := true } }

end Sys2Proof.Machine
end

