-- ==== Sys2Proof/Machine/Step.lean ====
section
/-! DEFINITION. One step of the machine: one turn, host's or core's. -/

namespace Sys2Proof.Machine

/-- What a turn comes to, run: an instruction by `exec`, anything else has its outcome already. -/
def runFetched (f : Fetched) : Host.Outcome State Fault Refusal :=
  match f with
  | .instr i s => exec i s
  | .other o => o

/-- One step (00_scope.md R13, R17): one turn, host's or core's. -/
def step (s : State) : Host.Outcome State Fault Refusal := runFetched (fetch s)

/-- The host's placing of a table word where the next step fetches it (log 11): a row of up to 8 bits is a command in
`MODE`, a row of 16 bits is the record `value * 256 + count` at `RP` (20_memory.md R58). A number that the row's bits
cannot hold is placed nowhere. -/
def State.withFetchWord (s : State) (nbits w : Nat) : State :=
  if nbits ≤ 8 then
    if w = 0 then placeCommand .encode s
    else if w = 1 then placeCommand .decode s
    else s
  else if nbits ≤ 16 ∧ w < 65536 then placeRecord (BitVec.ofNat 8 (w / 256)) (BitVec.ofNat 8 w) s
  else s

end Sys2Proof.Machine
end

