-- ==== Sys2Proof/Safety.lean ====
section
/-! DEFINITION. What claims are made of: when a launch is ready, which host turns disturb nothing, the invariants of
10_state.md R45 and of 40_encode.md R114 and 41_decode.md R144, and the termination measures. -/

namespace Sys2Proof.Machine

/-- `k` steps, stopping at the first fault or refusal. -/
def runN : Nat → State → Host.Outcome State Fault Refusal
  | 0, s => .next s
  | k + 1, s =>
    match step s with
    | .next s' => runN k s'
    | .fault f => .fault f
    | .refused r => .refused r

/-- The command that selects an operation (30_encoding.md R77). -/
def Mode.command : Mode → Instr
  | .encode => .encode
  | .decode => .decode

/-- The host duties of a launch hold (42_control.md R168; 10_state.md R27, R44): no operation is running, `MODE` and
`ILEN` are written, `IBUF[0..n)` is written (since an `H_RESET` or before it: log 23) and is `x`, the buffers do not overlap, and `n` and the result's length
`len` fit the platform. With the reference parameters the last four conditions always hold. -/
structure Ready (m : Mode) (s : State) (n : Nat) (x : List Byte) (len : Nat) : Prop where
  idle    : s.st ≠ .run
  mode    : s.mode = some m
  ilen    : s.ilen = some n
  input   : s.input n = some x
  width   : fitsWidth s.cfg n = true
  apart   : buffersOverlap s.cfg n = false
  lenFits : fitsWidth s.cfg len = true
  room    : fitsRoom s.cfg len = true

/-- Turns that a host may take while an operation runs and that disturb nothing: the core's own, the ignored command and
writes (42_control.md R168 H9), and reads of the five readable items (H10). -/
def Turn.harmless (c : Config) : Turn → Bool
  | .core => true
  | .act .start => true
  | .act (.writeMode _) => true
  | .act (.writeIlen n) => fitsWidth c n
  | .act (.read r) => r != .start
  | .act .reset => false
  | .act (.writeIbuf _ _) => false
  | .act (.readObuf _) => false
  | .act (.readIbuf _) => false

/-- 10_state.md R45, `ENCODE`: the registers of a running encoder, `n` being `ILEN`. -/
structure EncodeRegs (s : State) (n : Nat) : Prop where
  rp_le    : s.rp ≤ n
  wp_even  : s.wp % 2 = 0
  cnt_zero : s.cnt = 0#8 ↔ s.rp = 0
  wp_le    : s.wp ≤ 2 * s.rp
  pairRun  : s.cnt ≠ 0#8 → s.cnt.toNat ≤ s.rp ∧
    ∃ v, s.cur = some v ∧ ∀ i, s.rp - s.cnt.toNat ≤ i → i < s.rp → s.ibuf.read i = some v

/-- 10_state.md R45, `DECODE`: the registers of a running decoder, `n` being `ILEN`. -/
structure DecodeRegs (s : State) (n : Nat) : Prop where
  n_even  : n % 2 = 0
  rp_even : s.rp % 2 = 0
  rp_le   : s.rp ≤ n
  copying : s.rem ≠ 0#8 → 2 ≤ s.rp ∧
    ∃ v c, s.val = some v ∧ s.ibuf.read (s.rp - 2) = some v ∧ s.ibuf.read (s.rp - 1) = some c ∧
      s.rem.toNat ≤ c.toNat

/-- The register invariant: both memories canonical; `ERRCODE = 1` exactly in `ERROR` (10_state.md R35); `OLEN = 0` in
`IDLE` and `ERROR` (R36); `OBUF[0..OLEN)` written (20_memory.md R54); and while `ST = RUN` a mode, a length and a written
input, with R45 for the mode. -/
structure RegsInv (s : State) : Prop where
  ibuf_wf  : Memory.wf s.ibuf
  obuf_wf  : Memory.wf s.obuf
  errcode  : s.errcode = .malformedInput ↔ s.st = .error
  idle_wp  : s.st = .idle → s.wp = 0
  error_wp : s.st = .error → s.wp = 0
  written  : s.out.isSome = true
  running  : s.st = .run → ∃ n x, s.ilen = some n ∧ s.input n = some x ∧
    ((s.mode = some .encode ∧ EncodeRegs s n) ∨ (s.mode = some .decode ∧ DecodeRegs s n))

/-- `open` of 40_encode.md R114: the open pair as a record, nothing when none is open. -/
def State.openPair (s : State) : List Byte := if s.cnt = 0#8 then [] else [s.curByte, s.cnt]

/-- `rep(VAL, REM)` of 41_decode.md R144; nothing when `REM = 0`, whatever `VAL` is. -/
def State.toEmit (s : State) : List Byte := rep s.valByte s.rem

/-- 40_encode.md R114 for the input `b`: what has been written and the open pair are a valid encoded buffer that means
what has been read; and what is still to come is what `enc` says. -/
structure EncodeLoop (s : State) (b out : List Byte) : Prop where
  valid   : ValidEncoded (out ++ s.openPair)
  meaning : expand (out ++ s.openPair) = b.take s.rp
  fresh   : s.cnt = 0#8 → out = [] ∧ s.rp = 0
  toCome  : s.cnt ≠ 0#8 → enc b = out ++ encGo s.curByte s.cnt (b.drop s.rp)

/-- 41_decode.md R144 for the input `e`: what has been written and what is pending are the expansion of what has been
read; the rest of the input gives the rest of the result. -/
structure DecodeLoop (s : State) (e out : List Byte) : Prop where
  meaning : out ++ s.toEmit = expand (e.take s.rp)
  toCome  : expand e = out ++ s.toEmit ++ expand (e.drop s.rp)

/-- The content invariant: while `ST = RUN`, R114 or R144 for the operation's input and the bytes written so far. -/
def LoopInv (s : State) : Prop :=
  s.st = .run → ∀ n x out, s.ilen = some n → s.input n = some x → s.out = some out →
    (s.mode = some .encode → EncodeLoop s x out) ∧ (s.mode = some .decode → DecodeLoop s x out)

/-- The result of the operation `m` on an input it accepts (40_encode.md R118, 41_decode.md R146). -/
def result : Mode → List Byte → List Byte
  | .encode, b => enc b
  | .decode, e => expand e

/-- The length of that result. -/
def resultLen (m : Mode) (x : List Byte) : Nat := (result m x).length

/-- How many core steps the operation takes after its entry (70_reset_and_hazards.md R215), counted from the length of
its input and of its result. -/
def operationSteps : Mode → List Byte → Nat
  | .encode, b => b.length + 1
  | .decode, e => e.length / 2 + (expand e).length + 1

/-- The platform's limits (10_state.md R27, 70_reset_and_hazards.md R208): `ILEN` and `WP` fit, and while `ST = RUN` the
result of the running operation will. -/
structure LimitInv (s : State) : Prop where
  ilen_fits : ∀ n, s.ilen = some n → fitsWidth s.cfg n = true
  wp_fits   : fitsWidth s.cfg s.wp = true ∧ fitsRoom s.cfg s.wp = true
  result    : s.st = .run → ∀ m n x, s.mode = some m → s.ilen = some n → s.input n = some x →
    fitsWidth s.cfg (resultLen m x) = true ∧ fitsRoom s.cfg (resultLen m x) = true

/-- The measure of 40_encode.md R115, `n` being `ILEN`: steps an `ENCODE` still takes. -/
def encodeMeasure (n : Nat) (s : State) : Nat := (n - s.rp) + (if s.st = .run then 1 else 0)

/-- The measure of 41_decode.md R145 (90_conflicts.md C10), `n` being `ILEN`. -/
def decodeMeasure (n : Nat) (s : State) : Nat :=
  256 * (n - s.rp) / 2 + s.rem.toNat + (if s.st = .run then 1 else 0)

/-- What the host sees of the end of a run (42_control.md R167, R168 H12): `ST`, `ERRCODE`, `OLEN` and, in `DONE`, the
result `OBUF[0..OLEN)`. -/
def State.visible (s : State) : Status × ErrCode × Nat × Option (List Byte) :=
  (s.st, s.errcode, s.wp, if s.st = .done then s.out else none)

end Sys2Proof.Machine
end

