-- ==== Sys2Proof/Certificates/Slice0/Obligations.lean ====
section
/-! DEFINITION. The statements about the model, for the provers. Each docstring names the rule of spec/ it formalises. Where
a statement speaks of a step, `s` is the state before it and `s0` the same state with the turn taken off the host's list. -/

open Sys2Proof Sys2Proof.Machine

/-! ### Encodings -/

/-- A few words of the opcode table, written out bit by bit from its patterns `0`, `1`, `vvvvvvvvcccccccc` and
`vvvvvvvv00000000` (30_encoding.md R75, R77, R88; bit numbering R58). -/
def Obligations.TableWordsDecode : Prop :=
  decodeTableWord 8 0b0 = some .encode ∧
  decodeTableWord 8 0b1 = some .decode ∧
  decodeTableWord 16 0b0100000100000011 = some (.pair 0x41 3) ∧
  decodeTableWord 16 0b0100000100000000 = some (.pairZero 0x41) ∧
  decode .record [0x41, 0xFF] = .ok (.pair 0x41 255, []) ∧
  decode .record [0x05] = .error .truncatedRecord

/-- Decoding what the encoder wrote gives the instruction back, with every operand at every value, and leaves the bytes
after it (30_encoding.md R75, R77, R80, R87, R88). -/
def Obligations.DecodeAfterEncode : Prop :=
  ∀ (i : Instr) (rest : List Byte), i.wellFormed = true → decode i.format (encode i ++ rest) = .ok (i, rest)

/-- Whatever the decoder accepts is a well-formed instruction of the format asked for, and the bytes taken are its
encoding: each record and each command has one meaning (30_encoding.md R88). -/
def Obligations.DecodeAcceptsOnlyEncodings : Prop :=
  ∀ (f : Format) (bytes rest : List Byte) (i : Instr), decode f bytes = .ok (i, rest) →
    i.wellFormed = true ∧ i.format = f ∧ bytes = encode i ++ rest

/-- Framing (30_encoding.md R76, R83; 20_memory.md R57): an encoded buffer is its records one after the other and nothing
else. A list of well-formed records, encoded and read back, is itself; a buffer that is read is the encoding of the
records read; and the one illegal buffer is the one of odd length. -/
def Obligations.RecordStreamRoundTrip : Prop :=
  (∀ is : List Instr, (∀ i ∈ is, i.wellFormed = true ∧ i.format = .record) →
    decodeStream (encodeStream is) = .ok is) ∧
  (∀ (e : List Byte) (is : List Instr), decodeStream e = .ok is →
    encodeStream is = e ∧ e.length = 2 * is.length ∧ ∀ i ∈ is, i.wellFormed = true ∧ i.format = .record) ∧
  (∀ e : List Byte, decodeStream e = .error .truncatedRecord ↔ e.length % 2 = 1)

/-! ### A step runs the decoded instruction -/

/-- `H_START` outside `RUN` runs the command that `MODE` encodes (42_control.md R163; 30_encoding.md R77): the step is
`exec` of it at the state with that turn taken off the host's list, the core unchanged; from here the host awaits the end
(70_reset_and_hazards.md R205; the model's field for it, log 22). -/
def Obligations.StepRunsCommand : Prop :=
  ∀ (s s0 : State) (m : Mode) (i : Instr) (rest : List Byte),
    s.turn = (.act .start, s0) → s0.st ≠ .run → s0.mode = some m → decode .command [m.code] = .ok (i, rest) →
    step s = exec i { s0 with host := { s0.host with awaiting := true } } ∧
    s0 = { s with host := { s.host with moves := s.host.moves.tail } }

/-- While a `DECODE` runs and no copy is pending, the core's turn runs the record under `RP` (41_decode.md R133;
20_memory.md R57, R68). -/
def Obligations.StepRunsRecord : Prop :=
  ∀ (s s0 : State) (n : Nat) (v c : Byte) (i : Instr) (rest : List Byte),
    s.turn = (.core, s0) → s0.st = .run → s0.mode = some .decode → s0.rem = 0#8 → s0.ilen = some n →
    s0.rp + 1 < n → s0.ibuf.read s0.rp = some v → s0.ibuf.read (s0.rp + 1) = some c →
    decode .record [v, c] = .ok (i, rest) →
    step s = exec i s0 ∧ s0 = { s with host := { s.host with moves := s.host.moves.tail } }

/-! ### The commands -/

/-- 40_encode.md R102, whole: under the host's duties (R168) `ENCODE` writes `ST`, `ERRCODE`, `RP`, `WP`, `CNT` and
nothing else; every `ILEN` is accepted, and with `ILEN = 0` the first step will be `E_FINAL`. -/
def Obligations.EncodeEntry : Prop :=
  ∀ (s : State) (n : Nat) (b : List Byte), Ready .encode s n b (enc b).length →
    exec .encode s = .next { s with st := .run, errcode := .none, rp := 0, wp := 0, cnt := 0#8 } ∧
    (n = 0 → State.enabled { s with st := .run, errcode := .none, rp := 0, wp := 0, cnt := 0#8 } = some .eFinal)

/-- 41_decode.md R132, whole: an even `ILEN` starts the operation (with `ILEN = 0` the first step will be `D_FINAL`); an
odd one raises `MalformedInput` at once, whatever the bytes are: no core step follows and neither memory is touched. The
odd case needs no room for a result (70_reset_and_hazards.md R208). -/
def Obligations.DecodeEntry : Prop :=
  (∀ (s : State) (n : Nat) (e : List Byte), n % 2 = 0 → Ready .decode s n e (expand e).length →
    exec .decode s = .next { s with st := .run, errcode := .none, rp := 0, wp := 0, rem := 0#8 } ∧
    (n = 0 → State.enabled { s with st := .run, errcode := .none, rp := 0, wp := 0, rem := 0#8 } = some .dFinal)) ∧
  (∀ (s : State) (n : Nat) (e : List Byte), n % 2 = 1 → s.st ≠ .run → s.mode = some .decode → s.ilen = some n →
    s.input n = some e → fitsWidth s.cfg n = true → buffersOverlap s.cfg n = false →
    exec .decode s =
      .next { s with st := .error, errcode := .malformedInput, wp := 0, rp := 0, rem := 0#8 } ∧
    State.enabled { s with st := .error, errcode := .malformedInput, wp := 0, rp := 0, rem := 0#8 } = none)

/-- The duty H1 of 42_control.md R168 has no exception: a `DECODE` of odd length whose input the host has not written all
of is refused as well, although 41_decode.md R132 would read no byte of it (the model's reading, log 6). -/
def Obligations.OddDecodeNeedsWrittenInput : Prop :=
  ∀ (s : State) (n : Nat), n % 2 = 1 → s.st ≠ .run → s.mode = some .decode → s.ilen = some n → s.input n = none →
    fitsWidth s.cfg n = true → buffersOverlap s.cfg n = false → exec .decode s = .refused .inputUnwritten

/-- Where a launch is refused, and under which name (10_state.md R27, R44; 70_reset_and_hazards.md R203, R207, R208,
R209; 42_control.md R168 H1). Which of two broken duties is named first is the model's choice (log 10). That a `DECODE`
of odd length is held to its width, to disjoint buffers and to written input before its parity is looked at is the
model's reading of H1 against 41_decode.md R132 (log 6). -/
def Obligations.LaunchRefusals : Prop :=
  ∀ (m : Mode) (s : State), s.st ≠ .run → s.mode = some m →
    (s.ilen = none → exec m.command s = .refused .ilenUnwritten) ∧
    ∀ n, s.ilen = some n →
      (fitsWidth s.cfg n = false → exec m.command s = .refused .pointerWidth) ∧
      (fitsWidth s.cfg n = true → buffersOverlap s.cfg n = true → exec m.command s = .refused .buffersOverlap) ∧
      (fitsWidth s.cfg n = true → buffersOverlap s.cfg n = false →
        (s.input n = none → exec m.command s = .refused .inputUnwritten) ∧
        ∀ x, s.input n = some x → (m = .decode → n % 2 = 0) →
          (fitsWidth s.cfg (resultLen m x) = false → exec m.command s = .refused .pointerWidth) ∧
          (fitsWidth s.cfg (resultLen m x) = true → fitsRoom s.cfg (resultLen m x) = false →
            exec m.command s = .refused .outputRoom))

/-- `H_START` with `MODE` never written since reset is refused, not taken as a start with zero (10_state.md R44). -/
def Obligations.StartWithoutModeRefused : Prop :=
  ∀ s s0 : State, s.turn = (.act .start, s0) → s0.st ≠ .run → s0.mode = none → step s = .refused .modeUnwritten

/-- A command that answers a next state outside `RUN` was a launch with every duty kept, or a `DECODE` of odd length:
nothing else ever starts (42_control.md R163, R168). That bytes of `IBUF` written before an `H_RESET` meet the duty is the
model's choice (log 23). -/
def Obligations.CommandsStartOnlyWhenReady : Prop :=
  (∀ s : State, s.st ≠ .run →
    ((∃ t, exec .encode s = .next t) ↔ ∃ n b, Ready .encode s n b (enc b).length)) ∧
  (∀ s : State, s.st ≠ .run →
    ((∃ t, exec .decode s = .next t ∧ t.st = .run) ↔
      ∃ n e, n % 2 = 0 ∧ Ready .decode s n e (expand e).length))

/-! ### The records -/

/-- `PAIR` completes wherever the pair reader may read it (41_decode.md R133; 30_encoding.md R79, R80): the value goes to
`VAL` and the count, as it stands, to `REM`. -/
def Obligations.PairCompletes : Prop :=
  ∀ (v c : Byte) (s : State) (n : Nat), s.st = .run → s.mode = some .decode → s.rem = 0#8 → s.ilen = some n →
    s.rp + 1 < n →
    exec (.pair v c) s = .next { s with val := some v, rem := c, rp := s.rp + 2 }

/-- 41_decode.md R139, whole: `PAIR_ZERO` is consumed by one `D_READ`, fires no `D_EMIT`, writes nothing and raises
nothing, and `dec([v, 0] ++ s) = dec(s)`. The behaviour is the spec's decision D13. -/
def Obligations.PairZeroSkipped : Prop :=
  (∀ (v : Byte) (s : State) (n : Nat), s.st = .run → s.mode = some .decode → s.rem = 0#8 → s.ilen = some n →
    s.rp + 1 < n →
    exec (.pairZero v) s = .next { s with val := some v, rem := 0#8, rp := s.rp + 2 } ∧
    MicroStep.guard .dEmit { s with val := some v, rem := 0#8, rp := s.rp + 2 } = false) ∧
  (∀ (v : Byte) (e : List Byte), dec (v :: 0#8 :: e) = dec e)

/-- What the four instructions leave unchanged when they answer a next state: neither memory is written by any of them
(40_encode.md R102, R110; 41_decode.md R132, R133, R141); a command keeps `MODE`, `ILEN`, `CUR`, `VAL`, and `ENCODE`
keeps `REM`; `DECODE` and a record keep `CNT`; a record keeps `ST`, `ERRCODE`, `WP`. -/
def Obligations.InstructionFrames : Prop :=
  ∀ (i : Instr) (s t : State), exec i s = .next t →
    t.mode = s.mode ∧ t.ilen = s.ilen ∧ t.cur = s.cur ∧ t.cfg = s.cfg ∧ t.host = s.host ∧ t.resets = s.resets ∧
    (i ≠ .encode → t.cnt = s.cnt) ∧
    (i.format = .command → t.val = s.val) ∧
    (i = .encode → t.rem = s.rem) ∧
    (i.format = .record → t.st = s.st ∧ t.errcode = s.errcode ∧ t.wp = s.wp) ∧
    (∀ a, t.ibuf.read a = s.ibuf.read a) ∧
    (∀ a, t.obuf.read a = s.obuf.read a)

/-- Where a meaning stops because the state does not select it (log 12), and that no step ever runs one there: the
guards of 40_encode.md R102, 41_decode.md R132, R133 are checked before an instruction runs. -/
def Obligations.MeaningsRunOnlyWhereSelected : Prop :=
  (∀ (m : Mode) (s : State), s.st ≠ .run → s.mode ≠ some m → exec m.command s = .fault .notSelected) ∧
  (∀ (i : Instr) (s : State), i.format = .record →
    (MicroStep.guard .dRead s = false → exec i s = .fault .notSelected) ∧
    (MicroStep.guard .dRead s = true → s.ilen = some (s.rp + 1) → exec i s = .fault .truncatedRecord)) ∧
  (∀ s : State, step s ≠ .fault .notSelected)

/-! ### The micro-steps of `ENCODE` -/

/-- 40_encode.md R103, whole: `E_OPEN`, and that it fires at the first byte of a non-empty input and nowhere else. -/
def Obligations.EOpenStep : Prop :=
  (∀ (s s0 : State) (n : Nat) (x : Byte), s.turn = (.core, s0) → s0.st = .run → s0.mode = some .encode →
    s0.ilen = some n → s0.rp < n → s0.cnt = 0#8 → s0.ibuf.read s0.rp = some x →
    step s = .next { s0 with cur := some x, cnt := 1#8, rp := s0.rp + 1 }) ∧
  (∀ (s : State) (n : Nat), RegsInv s → s.st = .run → s.mode = some .encode → s.ilen = some n →
    (MicroStep.guard .eOpen s = true ↔ s.rp = 0 ∧ 0 < n))

/-- 40_encode.md R104, whole: `E_EXTEND`; the new count is one more as a number, at most 255, so it never wraps; with the
count full it does not fire. -/
def Obligations.EExtendStep : Prop :=
  (∀ (s s0 : State) (n : Nat) (v : Byte), s.turn = (.core, s0) → s0.st = .run → s0.mode = some .encode →
    s0.ilen = some n → s0.rp < n → s0.cnt ≠ 0#8 → s0.cur = some v → s0.ibuf.read s0.rp = some v →
    s0.cnt.toNat < 255 →
    ∃ c : Byte, c.toNat = s0.cnt.toNat + 1 ∧ step s = .next { s0 with cnt := c, rp := s0.rp + 1 }) ∧
  (∀ s : State, s.cnt = 255#8 → MicroStep.guard .eExtend s = false)

/-- 40_encode.md R105, whole: `E_CHANGE`, whatever `CNT` is; the pair of before the step is written at `WP` and `WP + 1`,
value first, and no other byte of `OBUF` changes. -/
def Obligations.EChangeStep : Prop :=
  ∀ (s s0 : State) (n : Nat) (v x : Byte), s.turn = (.core, s0) → s0.st = .run → s0.mode = some .encode →
    s0.ilen = some n → s0.rp < n → s0.cnt ≠ 0#8 → s0.cur = some v → s0.ibuf.read s0.rp = some x → x ≠ v →
    ∃ o : Memory, step s =
        .next { s0 with obuf := o, wp := s0.wp + 2, cur := some x, cnt := 1#8, rp := s0.rp + 1 } ∧
      o.read s0.wp = some v ∧ o.read (s0.wp + 1) = some s0.cnt ∧
      ∀ a, a ≠ s0.wp → a ≠ s0.wp + 1 → o.read a = s0.obuf.read a

/-- 40_encode.md R106, whole: `E_SPLIT`, the same byte with the count full; the count written is 255 and counting
restarts at 1 with the same value. -/
def Obligations.ESplitStep : Prop :=
  ∀ (s s0 : State) (n : Nat) (v : Byte), s.turn = (.core, s0) → s0.st = .run → s0.mode = some .encode →
    s0.ilen = some n → s0.rp < n → s0.cnt = 255#8 → s0.cur = some v → s0.ibuf.read s0.rp = some v →
    ∃ o : Memory, step s =
        .next { s0 with obuf := o, wp := s0.wp + 2, cur := some v, cnt := 1#8, rp := s0.rp + 1 } ∧
      o.read s0.wp = some v ∧ o.read (s0.wp + 1) = some 255#8 ∧
      ∀ a, a ≠ s0.wp → a ≠ s0.wp + 1 → o.read a = s0.obuf.read a

/-- 40_encode.md R107, whole: `E_FINAL` with an open pair, and with none, which in a state that keeps the invariant is
`ILEN = 0`, where `OLEN` stays 0. -/
def Obligations.EFinalStep : Prop :=
  (∀ s s0 : State, s.turn = (.core, s0) → s0.st = .run → s0.mode = some .encode → s0.ilen = some s0.rp →
    (s0.cnt = 0#8 → step s = .next { s0 with cnt := 0#8, st := .done }) ∧
    (∀ v, s0.cnt ≠ 0#8 → s0.cur = some v →
      ∃ o : Memory, step s = .next { s0 with obuf := o, wp := s0.wp + 2, cnt := 0#8, st := .done } ∧
        o.read s0.wp = some v ∧ o.read (s0.wp + 1) = some s0.cnt ∧
        ∀ a, a ≠ s0.wp → a ≠ s0.wp + 1 → o.read a = s0.obuf.read a)) ∧
  (∀ s : State, RegsInv s → MicroStep.guard .eFinal s = true →
    s.errcode = .none ∧ (s.cnt ≠ 0#8 ↔ ∃ n, s.ilen = some n ∧ 0 < n) ∧ (s.cnt = 0#8 → s.wp = 0))

/-! ### The micro-steps of `DECODE` -/

/-- 41_decode.md R133, whole: under the rule's own guard, in a state that keeps the invariant, both bytes exist and
`D_READ` takes them. -/
def Obligations.DReadStep : Prop :=
  ∀ (s s0 : State) (n : Nat), s.turn = (.core, s0) → RegsInv s0 → s0.st = .run → s0.mode = some .decode →
    s0.rem = 0#8 → s0.ilen = some n → s0.rp < n →
    s0.rp + 1 < n ∧ ∃ v c : Byte, s0.ibuf.read s0.rp = some v ∧ s0.ibuf.read (s0.rp + 1) = some c ∧
      step s = .next { s0 with val := some v, rem := c, rp := s0.rp + 2 }

/-- 41_decode.md R134, whole: `D_EMIT` writes one byte at `WP` and no other; `REM` falls by one as a number; and with
`REM` copies pending it fires that many times, which appends `rep(VAL, REM)` to the output and reads no record. -/
def Obligations.DEmitStep : Prop :=
  (∀ (s s0 : State) (v : Byte), s.turn = (.core, s0) → s0.st = .run → s0.mode = some .decode → s0.rem ≠ 0#8 →
    s0.val = some v →
    ∃ (o : Memory) (c : Byte), step s = .next { s0 with obuf := o, wp := s0.wp + 1, rem := c } ∧
      c.toNat + 1 = s0.rem.toNat ∧ o.read s0.wp = some v ∧ ∀ a, a ≠ s0.wp → o.read a = s0.obuf.read a) ∧
  (∀ (s : State) (v : Byte) (o : List Byte), s.host.moves = [] → s.st = .run → s.mode = some .decode →
    s.val = some v → s.out = some o →
    ∃ t, runN s.rem.toNat s = .next t ∧ t.rem = 0#8 ∧ t.out = some (o ++ rep v s.rem) ∧ t.rp = s.rp ∧
      t.st = .run)

/-- 41_decode.md R135, whole: `D_FINAL` changes `ST` and nothing else. -/
def Obligations.DFinalStep : Prop :=
  ∀ s s0 : State, s.turn = (.core, s0) → s0.st = .run → s0.mode = some .decode → s0.rem = 0#8 →
    s0.ilen = some s0.rp → step s = .next { s0 with st := .done }

/-- The model's choice of log 21: where `CUR` or `VAL` is read while it holds no value, which no run from a launch comes to
(10_state.md R44), the step goes on with some byte, of which nothing is said, and does all else its rule says
(40_encode.md R104 to R107; 41_decode.md R134). -/
def Obligations.UnwrittenRegistersRunOn : Prop :=
  (∀ (s s0 : State) (n : Nat) (x : Byte), s.turn = (.core, s0) → s0.st = .run → s0.mode = some .encode →
    s0.ilen = some n → s0.rp < n → s0.cnt ≠ 0#8 → s0.cur = none → s0.ibuf.read s0.rp = some x →
    (∃ c : Byte, c.toNat = s0.cnt.toNat + 1 ∧ step s = .next { s0 with cnt := c, rp := s0.rp + 1 }) ∨
    ∃ (v : Byte) (o : Memory), step s =
        .next { s0 with obuf := o, wp := s0.wp + 2, cur := some x, cnt := 1#8, rp := s0.rp + 1 } ∧
      o.read s0.wp = some v ∧ o.read (s0.wp + 1) = some s0.cnt ∧
      ∀ a, a ≠ s0.wp → a ≠ s0.wp + 1 → o.read a = s0.obuf.read a) ∧
  (∀ s s0 : State, s.turn = (.core, s0) → s0.st = .run → s0.mode = some .encode → s0.ilen = some s0.rp →
    s0.cnt ≠ 0#8 → s0.cur = none →
    ∃ (v : Byte) (o : Memory), step s = .next { s0 with obuf := o, wp := s0.wp + 2, cnt := 0#8, st := .done } ∧
      o.read s0.wp = some v ∧ o.read (s0.wp + 1) = some s0.cnt ∧
      ∀ a, a ≠ s0.wp → a ≠ s0.wp + 1 → o.read a = s0.obuf.read a) ∧
  (∀ s s0 : State, s.turn = (.core, s0) → s0.st = .run → s0.mode = some .decode → s0.rem ≠ 0#8 → s0.val = none →
    ∃ (v : Byte) (o : Memory) (c : Byte), step s = .next { s0 with obuf := o, wp := s0.wp + 1, rem := c } ∧
      c.toNat + 1 = s0.rem.toNat ∧ o.read s0.wp = some v ∧ ∀ a, a ≠ s0.wp → o.read a = s0.obuf.read a)

/-! ### The sequencer -/

/-- 42_control.md R166: in every state at most one guard holds; in a running state that keeps the invariant exactly one of
the five of `ENCODE`, or of the three of `DECODE`, by `MODE`; outside `RUN` none holds and the core's turn changes
nothing. -/
def Obligations.ExactlyOneStepEnabled : Prop :=
  (∀ (s : State) (m m' : MicroStep), m.guard s = true → m'.guard s = true → m = m') ∧
  (∀ s : State, RegsInv s → s.st = .run → s.mode = some .encode →
    ∃ m ∈ [MicroStep.eOpen, .eExtend, .eChange, .eSplit, .eFinal], m.guard s = true) ∧
  (∀ s : State, RegsInv s → s.st = .run → s.mode = some .decode →
    ∃ m ∈ [MicroStep.dRead, .dEmit, .dFinal], m.guard s = true) ∧
  (∀ s : State, s.st ≠ .run → ∀ m : MicroStep, m.guard s = false) ∧
  (∀ s s0 : State, s.turn = (.core, s0) → s0.st ≠ .run → step s = .next s0)

/-- 60_exceptions.md R182, 42_control.md R172: from a running state that keeps the invariant the core's turn always
completes, in `RUN` or in `DONE`, and raises nothing. -/
def Obligations.RunningCoreNeverStops : Prop :=
  ∀ s s0 : State, s.turn = (.core, s0) → RegsInv s0 → s0.st = .run →
    ∃ t, step s = .next t ∧ (t.st = .run ∨ t.st = .done) ∧ t.errcode = .none

/-- From a state that keeps the register invariant (10_state.md R45) no step answers a fault, whatever the turn. That `CUR`
and `VAL` hold a value where a step reads them is no part of this statement: the invariant says so itself
(`EncodeRegs.pairRun`, `DecodeRegs.copying`), and StepKeepsRegs that every step keeps it. -/
def Obligations.InvariantStatesNeverFault : Prop :=
  ∀ (s : State) (f : Fault), RegsInv s → step s ≠ .fault f

/-- 40_encode.md R115: every core step of a running `ENCODE` lowers `(ILEN - RP) + (1 if RUN)` by exactly 1. -/
def Obligations.EncodeMeasureFalls : Prop :=
  ∀ (s s0 : State) (n : Nat), s.turn = (.core, s0) → RegsInv s0 → s0.st = .run → s0.mode = some .encode →
    s0.ilen = some n → ∃ t, step s = .next t ∧ encodeMeasure n t + 1 = encodeMeasure n s0

/-- 41_decode.md R145 (90_conflicts.md C10): every core step of a running `DECODE` lowers its measure by at least 1. -/
def Obligations.DecodeMeasureFalls : Prop :=
  ∀ (s s0 : State) (n : Nat), s.turn = (.core, s0) → RegsInv s0 → s0.st = .run → s0.mode = some .decode →
    s0.ilen = some n → ∃ t, step s = .next t ∧ decodeMeasure n t < decodeMeasure n s0

/-- 60_exceptions.md R180: the one error has code 1, and the only step that raises it is the entry of a `DECODE` whose
`ILEN` is odd; nothing is recorded beyond the code, and the rest of the error entry is R186. What the host's side becomes
is not stated here. -/
def Obligations.ErrorOnlyFromOddDecode : Prop :=
  ErrCode.malformedInput.code = 1 ∧
  ∀ s t : State, step s = .next t → s.errcode = .none → t.errcode = .malformedInput →
    ∃ n s0, s.turn = (.act .start, s0) ∧ s.mode = some .decode ∧ s.ilen = some n ∧ n % 2 = 1 ∧
      t = { s0 with st := .error, errcode := .malformedInput, wp := 0, rp := 0, rem := 0#8,
                    host := t.host }

/-- 20_memory.md R53, R54: a turn of the core never changes `IBUF`, and writes `OBUF` only from `WP` on, moving `WP` past
what it wrote, at most 2 bytes. -/
def Obligations.CoreWritesOnlyAtWp : Prop :=
  ∀ s s0 t : State, s.turn = (.core, s0) → step s = .next t →
    t.ibuf = s.ibuf ∧ s.wp ≤ t.wp ∧ t.wp ≤ s.wp + 2 ∧
    ∀ a, (a < s.wp ∨ t.wp ≤ a) → t.obuf.read a = s.obuf.read a

/-- 20_memory.md R50, R53: the host never changes `OBUF`, and the one move that changes `IBUF` is `H_WRITE_IBUF`, at its
one index, outside `RUN` and with no end awaited (70_reset_and_hazards.md R205; the model's field and reading, log 22);
nothing else of the core changes with it. -/
def Obligations.OnlyHostWritesIbuf : Prop :=
  ∀ (s s0 t : State) (a : HostMove), s.turn = (.act a, s0) → step s = .next t →
    t.obuf = s.obuf ∧
    (∀ i, t.ibuf.read i ≠ s.ibuf.read i →
      s.st ≠ .run ∧ s.host.awaiting = false ∧ ∃ v, a = .writeIbuf i v ∧ t = { s0 with ibuf := t.ibuf } ∧ t.ibuf.read i = some v)

/-- 10_state.md R31, R32, R37: while `ST = RUN` no turn but `H_RESET` changes `MODE`, `ILEN` or `IBUF`, the inputs of the
operation. -/
def Obligations.InputsFixedWhileRunning : Prop :=
  ∀ s t : State, step s = .next t → s.st = .run → (∀ s0, s.turn ≠ (.act .reset, s0)) →
    t.mode = s.mode ∧ t.ilen = s.ilen ∧ t.ibuf = s.ibuf

/-- 42_control.md R169: in `DONE`, the result stays until the next `H_START` or `H_RESET`; in `ERROR`, the error does
(60_exceptions.md R187). -/
def Obligations.OutcomeKeptUntilNextStart : Prop :=
  ∀ s t : State, step s = .next t → (s.st = .done ∨ s.st = .error) →
    (∀ s0, s.turn ≠ (.act .reset, s0)) → (∀ s0, s.turn ≠ (.act .start, s0)) →
    t.st = s.st ∧ t.errcode = s.errcode ∧ t.wp = s.wp ∧ t.obuf = s.obuf

/-! ### Invariants -/

/-- The three invariants hold at reset. That `IBUF`, `OBUF` list nothing and that the parameters are the reference ones is
the model's choice there (logs 4, 5). -/
def Obligations.InvariantsAtReset : Prop :=
  RegsInv State.reset ∧ LoopInv State.reset ∧ LimitInv State.reset

/-- 10_state.md R45 with R35 and R36: every step, the core's or the host's, keeps the register invariant and the
canonical form of both memories. -/
def Obligations.StepKeepsRegs : Prop :=
  ∀ s t : State, RegsInv s → step s = .next t → RegsInv t

/-- 40_encode.md R114 and 41_decode.md R144: every step keeps the loop invariants that tie what is written to what has
been read and to `enc` and `dec`. -/
def Obligations.StepKeepsLoop : Prop :=
  ∀ s t : State, RegsInv s → LoopInv s → step s = .next t → LoopInv t

/-- 10_state.md R27, 70_reset_and_hazards.md R208, R209: with the launch duties kept, no step ever moves `ILEN` or `WP`
past `LENW` or `WP` past `OCAP`. -/
def Obligations.StepKeepsLimits : Prop :=
  ∀ s t : State, RegsInv s → LoopInv s → LimitInv s → step s = .next t → LimitInv t

/-! ### The functions -/

/-- 40_encode.md R112, first sentence: the output has even length and every count byte is in 1 to 255. -/
def Obligations.EncIsValid : Prop :=
  ∀ b : List Byte, (enc b).length % 2 = 0 ∧ ∀ p ∈ records (enc b), 1 ≤ p.2.toNat ∧ p.2.toNat ≤ 255

/-- 30_encoding.md R84, whole: every `enc(b)` is canonical, every canonical buffer is `enc` of the buffer it means, and so
the canonical encoded buffers are exactly the images of `enc`. -/
def Obligations.CanonicalIffEncoded : Prop :=
  (∀ b : List Byte, CanonicalEncoded (enc b)) ∧ (∀ e : List Byte, CanonicalEncoded e → enc (expand e) = e) ∧
  (∀ e : List Byte, CanonicalEncoded e ↔ ∃ b, enc b = e)

/-- 40_encode.md R113, the bounds: at most twice the input, and for a non-empty input at least two bytes for every 255
begun. -/
def Obligations.EncSizeBounds : Prop :=
  ∀ b : List Byte, (enc b).length ≤ 2 * b.length ∧ 2 * ((b.length + 254) / 255) ≤ (enc b).length

/-- 40_encode.md R113, run by run: a maximal run of `q * 255 + r` equal bytes gives `q` full records and, if `r` is not 0,
one record of count `r`; and a maximal run is encoded on its own, before what follows it. -/
def Obligations.EncRunByRun : Prop :=
  (∀ (x : Byte) (q r : Nat), r < 255 →
    enc (List.replicate (q * 255 + r) x) =
      (List.replicate q [x, 255]).flatten ++ (if r = 0 then [] else [x, BitVec.ofNat 8 r])) ∧
  (∀ (x : Byte) (k : Nat) (b : List Byte), b.head? ≠ some x →
    enc (List.replicate k x ++ b) = enc (List.replicate k x) ++ enc b)

/-- 41_decode.md R143: the length of the expansion is the sum of the count bytes, at most 255 for every two bytes of
input. -/
def Obligations.DecSize : Prop :=
  ∀ e d : List Byte, dec e = some d → d.length = countSum e ∧ d.length ≤ 255 * e.length / 2

/-- 41_decode.md R147, the function: `dec(enc(b)) = b` for every buffer, with no condition on run lengths
(90_conflicts.md C2). -/
def Obligations.DecAfterEnc : Prop :=
  ∀ b : List Byte, dec (enc b) = some b

/-- 41_decode.md R149 (a), (b): `enc(dec(e)) = e` holds for canonical `e` and for no other, and `dec` is not one-to-one on
valid encoded buffers. -/
def Obligations.EncAfterDecOnlyCanonical : Prop :=
  (∀ e d : List Byte, dec e = some d → (enc d = e ↔ CanonicalEncoded e)) ∧
  (∃ e f : List Byte, ValidEncoded e ∧ ValidEncoded f ∧ e ≠ f ∧ dec e = dec f)

/-! ### The operations -/

/-- 40_encode.md R118 with R100, R110, R115: an `ENCODE`, started from any state by a host that then leaves the core to
itself, is in `RUN` for `n + 1` states and then, after `n + 1` core steps, in `DONE` with `OBUF[0..OLEN) = enc(IBUF[0..n))`
and no error; `IBUF`, `MODE`, `ILEN`, `VAL`, `REM` are as they were. -/
def Obligations.EncodeRefinesEnc : Prop :=
  ∀ (s s0 : State) (n : Nat) (b : List Byte), s.turn = (.act .start, s0) → s0.host.moves = [] →
    Ready .encode s0 n b (enc b).length →
    (∀ k, k ≤ n → ∃ u, runN (k + 1) s = .next u ∧ u.st = .run) ∧
    ∃ t, runN (n + 2) s = .next t ∧ t.st = .done ∧ t.errcode = .none ∧ t.wp = (enc b).length ∧
      t.out = some (enc b) ∧ t.ibuf = s.ibuf ∧ t.mode = s.mode ∧ t.ilen = s.ilen ∧ t.val = s.val ∧ t.rem = s.rem

/-- 41_decode.md R146 with R130, R141, R145: a `DECODE` of even length is in `DONE` after exactly
`n / 2 + OLEN + 1` core steps with `OBUF[0..OLEN) = dec(IBUF[0..n))`; one of odd length is in `ERROR` at once, with
`ERRCODE = 1`, `OLEN = 0`, `dec` of the input an error, and the core's turns change nothing more. -/
def Obligations.DecodeRefinesDec : Prop :=
  (∀ (s s0 : State) (n : Nat) (e : List Byte), s.turn = (.act .start, s0) → s0.host.moves = [] → n % 2 = 0 →
    Ready .decode s0 n e (expand e).length →
    (∀ k, k < operationSteps .decode e → ∃ u, runN (k + 1) s = .next u ∧ u.st = .run) ∧
    ∃ t, runN (n / 2 + t.wp + 1 + 1) s = .next t ∧ t.st = .done ∧ t.errcode = .none ∧ t.out = dec e ∧
      t.wp = (expand e).length ∧ t.ibuf = s.ibuf ∧ t.mode = s.mode ∧ t.ilen = s.ilen ∧ t.cur = s.cur ∧
      t.cnt = s.cnt) ∧
  (∀ (s s0 : State) (n : Nat) (e : List Byte), s.turn = (.act .start, s0) → s0.host.moves = [] → n % 2 = 1 →
    s0.st ≠ .run → s0.mode = some .decode → s0.ilen = some n → s0.input n = some e → fitsWidth s0.cfg n = true →
    buffersOverlap s0.cfg n = false →
    dec e = none ∧
    ∃ t, t.st = .error ∧ t.errcode = .malformedInput ∧ t.wp = 0 ∧ t.obuf = s.obuf ∧
      ∀ k, runN (k + 1) s = .next t)

/-- 41_decode.md R147, the hardware: an `ENCODE` of `b`, then a `DECODE` (started from any state whatever) whose
`IBUF[0..ILEN)` holds the first one's `OBUF[0..OLEN)`, ends in `DONE` with `b`. -/
def Obligations.RoundTripOnMachine : Prop :=
  ∀ (s s0 : State) (n : Nat) (b : List Byte), s.turn = (.act .start, s0) → s0.host.moves = [] →
    Ready .encode s0 n b (enc b).length →
    ∃ k t e, runN k s = .next t ∧ t.st = .done ∧ t.out = some e ∧
      ∀ r r0 : State, r.turn = (.act .start, r0) → r0.host.moves = [] →
        Ready .decode r0 e.length e b.length →
        ∃ k' u, runN k' r = .next u ∧ u.st = .done ∧ u.errcode = .none ∧ u.out = some b

/-- 40_encode.md R109 and 41_decode.md R138, whole: empty gives empty, in `DONE` with `OLEN = 0`, after the single core
step that ends the operation. -/
def Obligations.EmptyGivesEmpty : Prop :=
  enc [] = [] ∧ dec [] = some [] ∧
  ∀ (m : Mode) (s s0 : State), s.turn = (.act .start, s0) → s0.host.moves = [] → Ready m s0 0 [] 0 →
    ∃ u t, step s = .next u ∧ u.st = .run ∧
      u.enabled = some (match m with | .encode => .eFinal | .decode => .dFinal) ∧
      step u = .next t ∧ t.st = .done ∧ t.errcode = .none ∧ t.wp = 0 ∧ t.out = some []

/-- 70_reset_and_hazards.md R216 with 42_control.md R164, R168 H9, H10, R172: whatever harmless turns the host takes
meanwhile (ignored starts and writes, status reads), a started operation ends in `DONE` with its result, within as
many steps as it has core steps plus the host's turns plus the start. -/
def Obligations.OperationEndsDespiteHost : Prop :=
  ∀ (m : Mode) (s s0 : State) (n : Nat) (x : List Byte), s.turn = (.act .start, s0) →
    Ready m s0 n x (resultLen m x) → (m = .decode → n % 2 = 0) →
    (∀ t ∈ s0.host.moves, t.harmless s0.cfg = true) →
    ∃ k t, k ≤ s0.host.moves.length + operationSteps m x + 1 ∧ runN k s = .next t ∧ t.st = .done ∧
      t.errcode = .none ∧ t.out = some (result m x)

/-- 10_state.md R42, 20_memory.md R53: what the host sees of an operation depends on `MODE`, `ILEN` and `IBUF[0..ILEN)`
alone (and the platform's parameters): two machines, whatever else they hold, that agree on these show the same
`ST`, `ERRCODE`, `OLEN` and result after every number of steps from the start on, or are refused alike. -/
def Obligations.ResultDependsOnInputOnly : Prop :=
  ∀ (s r s0 r0 : State) (n : Nat), s.turn = (.act .start, s0) → r.turn = (.act .start, r0) →
    s0.host.moves = [] → r0.host.moves = [] → s0.st ≠ .run → r0.st ≠ .run →
    s0.mode = r0.mode → s0.ilen = some n → r0.ilen = some n → s0.cfg = r0.cfg →
    (∀ i, i < n → s0.ibuf.read i = r0.ibuf.read i) →
    ∀ k, (∃ t u, runN (k + 1) s = .next t ∧ runN (k + 1) r = .next u ∧ t.visible = u.visible) ∨
      (∃ x, runN (k + 1) s = .refused x ∧ runN (k + 1) r = .refused x)

/-! ### The host's actions -/

/-- 70_reset_and_hazards.md R200, whole, with R202 and 10_state.md R43: `H_RESET` in any state, `RUN` included; after it
no core step is enabled. -/
def Obligations.HResetEffect : Prop :=
  ∀ s s0 : State, s.turn = (.act .reset, s0) →
    ∃ t, step s = .next t ∧ t.st = .idle ∧ t.errcode = .none ∧ t.wp = 0 ∧ t.rp = 0 ∧ t.cnt = 0#8 ∧ t.rem = 0#8 ∧
      t.cur = none ∧ t.val = none ∧ t.mode = none ∧ t.ilen = none ∧ t.ibuf = s.ibuf ∧ t.obuf = s.obuf ∧
      t.cfg = s.cfg ∧ t.host.moves = s0.host.moves ∧ t.host.seen = s.host.seen ∧ t.enabled = none

/-- 10_state.md R43: the registers of the state right after reset, and that the core does nothing there. The memories and
the parameters of `State.reset` are the model's choice (logs 4, 5) and are not stated. -/
def Obligations.ResetValues : Prop :=
  State.reset.st = .idle ∧ State.reset.errcode = .none ∧ State.reset.wp = 0 ∧ State.reset.rp = 0 ∧
  State.reset.cnt = 0#8 ∧ State.reset.rem = 0#8 ∧ State.reset.cur = none ∧ State.reset.val = none ∧
  State.reset.mode = none ∧ State.reset.ilen = none ∧ State.reset.enabled = none

/-- 42_control.md R161, R162: the two writes outside `RUN` change their one item and nothing else; a length beyond `LENW`
is refused. -/
def Obligations.HostWritesOutsideRun : Prop :=
  (∀ (s s0 : State) (m : Mode), s.turn = (.act (.writeMode m), s0) → s0.st ≠ .run →
    step s = .next { s0 with mode := some m }) ∧
  (∀ (s s0 : State) (n : Nat), s.turn = (.act (.writeIlen n), s0) → s0.st ≠ .run → fitsWidth s0.cfg n = true →
    step s = .next { s0 with ilen := some n }) ∧
  (∀ (s s0 : State) (n : Nat), s.turn = (.act (.writeIlen n), s0) → s0.st ≠ .run → fitsWidth s0.cfg n = false →
    step s = .refused .pointerWidth)

/-- 10_state.md R37, 42_control.md R164: while `ST = RUN`, writes of `MODE` and `ILEN` and `H_START` have no effect, and
neither command, run there, has any. -/
def Obligations.HostIgnoredInRun : Prop :=
  (∀ (s s0 : State) (a : HostMove), s.turn = (.act a, s0) → s0.st = .run →
    (a = .start ∨ (∃ m, a = .writeMode m) ∨ ∃ n, a = .writeIlen n ∧ fitsWidth s0.cfg n = true) →
    step s = .next s0) ∧
  (∀ (m : Mode) (s : State), s.st = .run → exec m.command s = .next s)

/-- 42_control.md R165 with the codes of 00_scope.md R9: a read of each readable item returns its value and changes nothing
of the core; a read of `ST` that shows `DONE` or `ERROR` is the host's observation of the end (20_memory.md R65; the
model's field `awaiting` for it, log 22), and no other read is; reads of `MODE` and `ILEN` unwritten, and of `START`, are
refused (93_implementation_defined.md U5, U9). -/
def Obligations.HostReads : Prop :=
  ∀ (s s0 : State) (r : Item), s.turn = (.act (.read r), s0) →
    (r = .mode → ∀ m, s0.mode = some m →
      step s = .next (s0.answer (.item .mode (match m with | .encode => 0 | .decode => 1)))) ∧
    (r = .ilen → ∀ n, s0.ilen = some n → step s = .next (s0.answer (.item .ilen n))) ∧
    (r = .st → ∃ t : State, step s = .next t ∧
      t = { s0.answer (.item .st (match s0.st with | .idle => 0 | .run => 1 | .done => 2 | .error => 3)) with
        host := t.host } ∧
      t.host.moves = s0.host.moves ∧
      t.host.seen = s0.host.seen ++
        [.item .st (match s0.st with | .idle => 0 | .run => 1 | .done => 2 | .error => 3)] ∧
      (t.host.awaiting = true ↔ s0.host.awaiting = true ∧ s0.st ≠ .done ∧ s0.st ≠ .error)) ∧
    (r = .errcode → step s = .next (s0.answer (.item .errcode
      (match s0.errcode with | .none => 0 | .malformedInput => 1)))) ∧
    (r = .olen → step s = .next (s0.answer (.item .olen s0.wp))) ∧
    (r = .mode → s0.mode = none → step s = .refused (.itemUnwritten .mode)) ∧
    (r = .ilen → s0.ilen = none → step s = .refused (.itemUnwritten .ilen)) ∧
    (r = .start → step s = .refused .startNotReadable)

/-- 42_control.md R170 where the model lets the host access a buffer: outside `RUN`, once it has read in `ST` that its last
operation has ended. That the read of `ST` is needed for the write, and for the reads, is the model's choice between R170
and 20_memory.md R65 with 70_reset_and_hazards.md R205, R206 (logs 17, 18, 22). Then the host stores a byte in `IBUF` and
no other byte changes; it reads back a byte of `IBUF` that has been written; and in `DONE` it reads every byte of the
result, which is there. An index of `IBUF` beyond `LENW` does not exist (20_memory.md R51; that the access is refused is
log 20), and a byte of `IBUF` never written is refused (log 18). -/
def Obligations.HostBufferAccess : Prop :=
  (∀ (s s0 : State) (i : Nat) (v : Byte), s.turn = (.act (.writeIbuf i v), s0) → s0.st ≠ .run →
    s0.host.awaiting = false →
    (fitsWidth s0.cfg i = true →
      ∃ m : Memory, step s = .next { s0 with ibuf := m } ∧ m.read i = some v ∧
        ∀ a, a ≠ i → m.read a = s0.ibuf.read a) ∧
    (fitsWidth s0.cfg i = false → step s = .refused .pointerWidth)) ∧
  (∀ (s s0 : State) (i : Nat), s.turn = (.act (.readIbuf i), s0) → s0.st ≠ .run → s0.host.awaiting = false →
    (fitsWidth s0.cfg i = true →
      (∀ v, s0.ibuf.read i = some v → step s = .next (s0.answer (.ibuf i v))) ∧
      (s0.ibuf.read i = none → step s = .refused (.ibufUnwritten i))) ∧
    (fitsWidth s0.cfg i = false → step s = .refused .pointerWidth)) ∧
  (∀ (s s0 : State) (i : Nat), s.turn = (.act (.readObuf i), s0) → RegsInv s0 → s0.st = .done →
    s0.host.awaiting = false → i < s0.wp →
    ∃ v, s0.obuf.read i = some v ∧ step s = .next (s0.answer (.obuf i v)))

/-- Where a host access to a buffer is refused. While an operation runs, and until the host has read `ST = DONE` or
`ST = ERROR`, every one is: 20_memory.md R65, 70_reset_and_hazards.md R205, R206, 42_control.md R168 H2, H3. That this
takes in reads of `IBUF` is the model's choice of log 18, writes at or above `ILEN` log 19, and the time between the end
and the host's reading of it log 22. After that no byte of `OBUF` is readable but a result byte (R210): none in `IDLE` or
`ERROR`, none at `OLEN` or above. -/
def Obligations.HostBufferRefusals : Prop :=
  (∀ (s s0 : State) (a : HostMove), s.turn = (.act a, s0) → (s0.st = .run ∨ s0.host.awaiting = true) →
    ((∃ i v, a = .writeIbuf i v) ∨ (∃ i, a = .readObuf i) ∨ ∃ i, a = .readIbuf i) →
    step s = .refused .bufferInUse) ∧
  (∀ (s s0 : State) (i : Nat), s.turn = (.act (.readObuf i), s0) → s0.st ≠ .run → s0.host.awaiting = false →
    (s0.st ≠ .done ∨ s0.wp ≤ i) → step s = .refused .notAResult)

/-- 20_memory.md R65, 70_reset_and_hazards.md R205, R206, 42_control.md R168 H3, over the whole machine (the model's field
for it and its choices: log 22): an `H_START` that begins an operation, or fails with the error, makes the host await an
end; only the host's reading of `ST` as `DONE` or `ERROR`, or `H_RESET`, ends that; a running operation is always awaited
if it was before the step; and no access to a buffer ever takes effect in between. -/
def Obligations.EndReadBeforeBuffers : Prop :=
  (∀ s s0 t : State, s.turn = (.act .start, s0) → s0.st ≠ .run → step s = .next t → t.host.awaiting = true) ∧
  (∀ s t : State, step s = .next t → s.host.awaiting = true → t.host.awaiting = false →
    s.turn.1 = .act .reset ∨ (s.turn.1 = .act (.read .st) ∧ (s.st = .done ∨ s.st = .error))) ∧
  (∀ s t : State, (s.st = .run → s.host.awaiting = true) → step s = .next t → t.st = .run →
    t.host.awaiting = true) ∧
  (∀ (s s0 t : State) (a : HostMove), s.turn = (.act a, s0) → step s = .next t →
    ((∃ i v, a = .writeIbuf i v) ∨ (∃ i, a = .readObuf i) ∨ ∃ i, a = .readIbuf i) →
    s.st ≠ .run ∧ s.host.awaiting = false)
end

