-- ==== Sys2Proof/Laws/Codec.lean ====
section
/-! SUPPORT. Small laws of the codec functions. -/

namespace Sys2Proof.Machine

@[simp] theorem rep_zero (v : Byte) : rep v 0#8 = [] := rfl

@[simp] theorem rep_length (v c : Byte) : (rep v c).length = c.toNat := by simp [rep]

/-- A count that is not 0 falls by one (10_state.md R25: it never wraps below 0). -/
theorem toNat_sub_one {c : Byte} (h : c ≠ 0#8) : c.toNat = (c - 1#8).toNat + 1 := by bv_omega

/-- A count below 255 rises by one (40_encode.md R108: it never wraps). -/
theorem toNat_add_one {c : Byte} (h : c < maxRun) : (c + 1#8).toNat = c.toNat + 1 := by
  unfold maxRun at h; bv_omega

/-- One copy taken off the front (41_decode.md R134). -/
theorem rep_cons {v c : Byte} (h : c ≠ 0#8) : rep v c = v :: rep v (c - 1#8) := by
  rw [rep, toNat_sub_one h, List.replicate_succ]; rfl

/-- One copy added at the back (40_encode.md R104). -/
theorem rep_succ {v c : Byte} (h : c < maxRun) : rep v (c + 1#8) = rep v c ++ [v] := by
  rw [rep, toNat_add_one h, List.replicate_succ']; rfl

@[simp] theorem rep_one (v : Byte) : rep v 1#8 = [v] := rfl

@[simp] theorem expand_nil : expand [] = [] := rfl

@[simp] theorem expand_cons (v c : Byte) (s : List Byte) : expand (v :: c :: s) = rep v c ++ expand s := rfl

@[simp] theorem records_nil : records [] = [] := rfl

@[simp] theorem records_cons (v c : Byte) (s : List Byte) : records (v :: c :: s) = (v, c) :: records s := rfl

/-- A buffer of even length is empty or begins with a record. -/
theorem even_cases {e : List Byte} (h : e.length % 2 = 0) :
    e = [] ∨ ∃ v c s, e = v :: c :: s ∧ s.length % 2 = 0 := by
  match e with
  | [] => exact .inl rfl
  | [_] => simp at h
  | v :: c :: s => exact .inr ⟨v, c, s, rfl, by simp at h; omega⟩

/-- Whole records expand one after the other (30_encoding.md R81). -/
theorem expand_append {e : List Byte} (h : e.length % 2 = 0) (f : List Byte) :
    expand (e ++ f) = expand e ++ expand f := by
  match e with
  | [] => rfl
  | [_] => simp at h
  | v :: c :: s =>
    have hs : s.length % 2 = 0 := by simp at h; omega
    simp [expand_append hs f]

theorem records_append {e : List Byte} (h : e.length % 2 = 0) (f : List Byte) :
    records (e ++ f) = records e ++ records f := by
  match e with
  | [] => rfl
  | [_] => simp at h
  | v :: c :: s =>
    have hs : s.length % 2 = 0 := by simp at h; omega
    simp [records_append hs f]

@[simp] theorem enc_nil : enc [] = [] := rfl

@[simp] theorem encGo_nil (v c : Byte) : encGo v c [] = [v, c] := rfl

/-- Extend (40_encode.md R101, R104). -/
theorem encGo_extend {v c : Byte} (h : c < maxRun) (s : List Byte) : encGo v c (v :: s) = encGo v (c + 1#8) s := by
  simp [encGo, h]

/-- Flush and restart (40_encode.md R101, R105, R106). -/
theorem encGo_flush {v c x : Byte} (h : x ≠ v ∨ c = maxRun) (s : List Byte) :
    encGo v c (x :: s) = v :: c :: encGo x 1#8 s := by
  have : ¬ (x = v ∧ c < maxRun) := by
    rcases h with h | rfl
    · exact fun g => h g.1
    · exact fun g => absurd g.2 (by decide)
  simp [encGo, this]

/-- `enc` of a buffer that begins with `x` (40_encode.md R101, R103). -/
@[simp] theorem enc_cons (x : Byte) (s : List Byte) : enc (x :: s) = encGo x 1#8 s := rfl

end Sys2Proof.Machine
end

