-- ==== Sys2Proof/Laws/Memory.lean ====
section
/-! SUPPORT. The laws of a byte memory: a read after a write, the canonical form, and the bytes of a range. -/

namespace Sys2Proof.Machine

theorem Memory.read_write (m : Memory) (i j : Nat) (v : Byte) :
    (m.write i v).read j = if j = i then some v else m.read j := by
  induction m with
  | nil => simp [Memory.write, Memory.read, eq_comm]
  | cons p t ih =>
    obtain ⟨a, b⟩ := p
    simp only [Memory.write]
    split
    · simp only [Memory.read]; grind
    · split
      · simp only [Memory.read]; grind
      · simp only [Memory.read, ih]; grind

@[simp] theorem Memory.read_write_self (m : Memory) (i : Nat) (v : Byte) : (m.write i v).read i = some v := by
  simp [Memory.read_write]

theorem Memory.read_write_of_ne (m : Memory) {i j : Nat} (v : Byte) (h : j ≠ i) :
    (m.write i v).read j = m.read j := by
  simp [Memory.read_write, h]

/-- Every index of a memory after a write is the written one or was there before. -/
theorem Memory.mem_write {m : Memory} {i : Nat} {v : Byte} {p : Host.Cell} (h : p ∈ m.write i v) :
    p = (i, v) ∨ p ∈ m := by
  induction m with
  | nil => simpa [Memory.write] using h
  | cons q t ih =>
    simp only [Memory.write] at h
    split at h
    · simpa using h
    · split at h
      · simp only [List.mem_cons] at h ⊢; tauto
      · simp only [List.mem_cons] at h ⊢
        rcases h with h | h
        · exact .inr (.inl h)
        · rcases ih h with h | h
          · exact .inl h
          · exact .inr (.inr h)

theorem Memory.wf_nil : Memory.wf [] := List.Pairwise.nil

/-- The one operation that changes a memory keeps its canonical form. -/
theorem Memory.wf_write {m : Memory} (h : Memory.wf m) (i : Nat) (v : Byte) : Memory.wf (m.write i v) := by
  induction m with
  | nil => simp [Memory.write, Memory.wf]
  | cons q t ih =>
    obtain ⟨a, b⟩ := q
    have ht : Memory.wf t := (List.pairwise_cons.mp h).2
    have ha : ∀ p ∈ t, a < p.1 := (List.pairwise_cons.mp h).1
    simp only [Memory.write]
    split
    · next hlt =>
      refine List.pairwise_cons.mpr ⟨?_, h⟩
      intro p hp
      rcases List.mem_cons.mp hp with rfl | hp
      · exact hlt
      · exact lt_trans hlt (ha p hp)
    · split
      · next heq =>
        subst heq
        exact List.pairwise_cons.mpr ⟨ha, ht⟩
      · refine List.pairwise_cons.mpr ⟨?_, ih ht⟩
        intro p hp
        rcases Memory.mem_write hp with rfl | hp
        · show a < i; omega
        · exact ha p hp

/-- In a canonical memory a lower index than every listed one has no value. -/
theorem Memory.read_eq_none_of_lt {m : Memory} {i : Nat} (h : ∀ p ∈ m, i < p.1) : m.read i = none := by
  induction m with
  | nil => rfl
  | cons q t ih =>
    have h1 : i < q.1 := h q (by simp)
    simp only [Memory.read, if_neg (by omega : ¬ q.1 = i)]
    exact ih fun p hp => h p (by simp [hp])

/-- Canonical memories that read alike everywhere are the same list. -/
theorem Memory.eq_of_read_eq {m k : Memory} (hm : Memory.wf m) (hk : Memory.wf k)
    (h : ∀ i, m.read i = k.read i) : m = k := by
  induction m generalizing k with
  | nil =>
    cases k with
    | nil => rfl
    | cons q t => simpa [Memory.read] using h q.1
  | cons p t ih =>
    obtain ⟨a, b⟩ := p
    cases k with
    | nil => simpa [Memory.read] using h a
    | cons q u =>
      obtain ⟨c, d⟩ := q
      have hta := (List.pairwise_cons.mp hm).1
      have huc := (List.pairwise_cons.mp hk).1
      have hac : a = c := by
        rcases Nat.lt_trichotomy a c with hlt | heq | hgt
        · have hn : Memory.read ((c, d) :: u) a = none := Memory.read_eq_none_of_lt (by
            intro p hp
            rcases List.mem_cons.mp hp with rfl | hp
            · exact hlt
            · exact lt_trans hlt (huc p hp))
          have := h a; rw [hn] at this; simp [Memory.read] at this
        · exact heq
        · have hn : Memory.read ((a, b) :: t) c = none := Memory.read_eq_none_of_lt (by
            intro p hp
            rcases List.mem_cons.mp hp with rfl | hp
            · exact hgt
            · exact lt_trans hgt (hta p hp))
          have := h c; rw [hn] at this; simp [Memory.read] at this
      subst hac
      have hbd : b = d := by simpa [Memory.read] using h a
      subst hbd
      congr 1
      refine ih (List.pairwise_cons.mp hm).2 (List.pairwise_cons.mp hk).2 fun i => ?_
      by_cases hi : a = i
      · subst hi
        rw [Memory.read_eq_none_of_lt hta, Memory.read_eq_none_of_lt huc]
      · simpa [Memory.read, hi] using h i

/-- What a range of bytes being `l` says, byte by byte. -/
theorem Memory.bytesFrom_eq_some_iff {m : Memory} {i n : Nat} {l : List Byte} :
    m.bytesFrom i n = some l ↔ l.length = n ∧ ∀ k, k < n → m.read (i + k) = l[k]? := by
  induction n generalizing i l with
  | zero =>
    cases l <;> simp [Memory.bytesFrom]
  | succ n ih =>
    simp only [Memory.bytesFrom]
    constructor
    · intro h
      split at h
      · next b l' hb hl' =>
        cases h
        obtain ⟨hlen, hread⟩ := ih.mp hl'
        refine ⟨by simp [hlen], fun k hk => ?_⟩
        cases k with
        | zero => simpa using hb
        | succ k => simpa [Nat.add_assoc, Nat.add_comm 1 k] using hread k (by omega)
      · cases h
    · rintro ⟨hlen, hread⟩
      cases l with
      | nil => simp at hlen
      | cons b l =>
        have h0 : m.read i = some b := by simpa using hread 0 (by omega)
        have h1 : m.bytesFrom (i + 1) n = some l := ih.mpr ⟨by simpa using hlen, fun k hk => by
          simpa [Nat.add_assoc, Nat.add_comm 1 k] using hread (k + 1) (by omega)⟩
        rw [h0, h1]

theorem Memory.bytes_eq_some_iff {m : Memory} {n : Nat} {l : List Byte} :
    m.bytes n = some l ↔ l.length = n ∧ ∀ k, k < n → m.read k = l[k]? := by
  simp [Memory.bytes, Memory.bytesFrom_eq_some_iff]

@[simp] theorem Memory.bytes_zero (m : Memory) : m.bytes 0 = some [] := rfl

theorem Memory.bytes_length {m : Memory} {n : Nat} {l : List Byte} (h : m.bytes n = some l) : l.length = n :=
  (Memory.bytes_eq_some_iff.mp h).1

theorem Memory.bytes_read {m : Memory} {n k : Nat} {l : List Byte} (h : m.bytes n = some l) (hk : k < n) :
    m.read k = l[k]? :=
  (Memory.bytes_eq_some_iff.mp h).2 k hk

/-- Appending one byte at the end of a written range. -/
theorem Memory.bytes_write_end {m : Memory} {n : Nat} {l : List Byte} (v : Byte) (h : m.bytes n = some l) :
    (m.write n v).bytes (n + 1) = some (l ++ [v]) := by
  obtain ⟨hlen, hread⟩ := Memory.bytes_eq_some_iff.mp h
  refine Memory.bytes_eq_some_iff.mpr ⟨by simp [hlen], fun k hk => ?_⟩
  by_cases hkn : k = n
  · subst hkn; simp [← hlen]
  · rw [Memory.read_write_of_ne m v hkn, hread k (by omega), List.getElem?_append_left (by omega)]

/-- What the pair emitter appends. -/
theorem Memory.bytes_write_pair {m : Memory} {n : Nat} {l : List Byte} (v c : Byte) (h : m.bytes n = some l) :
    ((m.write n v).write (n + 1) c).bytes (n + 2) = some (l ++ [v, c]) := by
  simpa using Memory.bytes_write_end c (Memory.bytes_write_end v h)

/-- A write at or above a range leaves the range alone. -/
theorem Memory.bytes_write_above {m : Memory} {n i : Nat} (v : Byte) (h : n ≤ i) :
    (m.write i v).bytes n = m.bytes n := by
  have key : ∀ l, (m.write i v).bytes n = some l ↔ m.bytes n = some l := by
    intro l
    simp only [Memory.bytes_eq_some_iff]
    refine and_congr_right fun _ => forall₂_congr fun k hk => ?_
    rw [Memory.read_write_of_ne m v (by omega)]
  exact Option.ext key

end Sys2Proof.Machine
end

