-- ==== Sys2Proof/Laws/PerInstr.lean ====
section
/-! SUPPORT. Statements for all instructions, one lemma per constructor. -/

namespace Sys2Proof.Laws.EncodedLength

/-- A command takes one byte in the decoder's view, a record exactly 2 bytes, always (30_encoding.md R75, R87). -/
def Statement (i : Instr) : Prop := (encode i).length = if i.format = .record then recLen else 1

theorem encode : Statement .encode := rfl

theorem decode : Statement .decode := rfl

theorem pairZero (value : Byte) : Statement (.pairZero value) := rfl

theorem pair (value count : Byte) : Statement (.pair value count) := rfl

end Sys2Proof.Laws.EncodedLength
end

