-- ==== Sys2Proof/Laws/State.lean ====
section
/-! SUPPORT. The small lemmas of the state: one per field per update, each true by computation. -/

namespace Sys2Proof.Machine

@[simp] theorem encodeEntry_mode (s : State) : (encodeEntry s).mode = s.mode := rfl
@[simp] theorem encodeEntry_ilen (s : State) : (encodeEntry s).ilen = s.ilen := rfl
@[simp] theorem encodeEntry_st (s : State) : (encodeEntry s).st = .run := rfl
@[simp] theorem encodeEntry_errcode (s : State) : (encodeEntry s).errcode = .none := rfl
@[simp] theorem encodeEntry_rp (s : State) : (encodeEntry s).rp = 0 := rfl
@[simp] theorem encodeEntry_wp (s : State) : (encodeEntry s).wp = 0 := rfl
@[simp] theorem encodeEntry_cur (s : State) : (encodeEntry s).cur = s.cur := rfl
@[simp] theorem encodeEntry_cnt (s : State) : (encodeEntry s).cnt = 0#8 := rfl
@[simp] theorem encodeEntry_val (s : State) : (encodeEntry s).val = s.val := rfl
@[simp] theorem encodeEntry_rem (s : State) : (encodeEntry s).rem = s.rem := rfl
@[simp] theorem encodeEntry_ibuf (s : State) : (encodeEntry s).ibuf = s.ibuf := rfl
@[simp] theorem encodeEntry_obuf (s : State) : (encodeEntry s).obuf = s.obuf := rfl
@[simp] theorem encodeEntry_cfg (s : State) : (encodeEntry s).cfg = s.cfg := rfl
@[simp] theorem encodeEntry_host (s : State) : (encodeEntry s).host = s.host := rfl
@[simp] theorem encodeEntry_resets (s : State) : (encodeEntry s).resets = s.resets := rfl

@[simp] theorem decodeEntry_mode (s : State) : (decodeEntry s).mode = s.mode := rfl
@[simp] theorem decodeEntry_ilen (s : State) : (decodeEntry s).ilen = s.ilen := rfl
@[simp] theorem decodeEntry_st (s : State) : (decodeEntry s).st = .run := rfl
@[simp] theorem decodeEntry_errcode (s : State) : (decodeEntry s).errcode = .none := rfl
@[simp] theorem decodeEntry_rp (s : State) : (decodeEntry s).rp = 0 := rfl
@[simp] theorem decodeEntry_wp (s : State) : (decodeEntry s).wp = 0 := rfl
@[simp] theorem decodeEntry_cur (s : State) : (decodeEntry s).cur = s.cur := rfl
@[simp] theorem decodeEntry_cnt (s : State) : (decodeEntry s).cnt = s.cnt := rfl
@[simp] theorem decodeEntry_val (s : State) : (decodeEntry s).val = s.val := rfl
@[simp] theorem decodeEntry_rem (s : State) : (decodeEntry s).rem = 0#8 := rfl
@[simp] theorem decodeEntry_ibuf (s : State) : (decodeEntry s).ibuf = s.ibuf := rfl
@[simp] theorem decodeEntry_obuf (s : State) : (decodeEntry s).obuf = s.obuf := rfl
@[simp] theorem decodeEntry_cfg (s : State) : (decodeEntry s).cfg = s.cfg := rfl
@[simp] theorem decodeEntry_host (s : State) : (decodeEntry s).host = s.host := rfl
@[simp] theorem decodeEntry_resets (s : State) : (decodeEntry s).resets = s.resets := rfl

@[simp] theorem raiseMalformedInput_mode (s : State) : (raiseMalformedInput s).mode = s.mode := rfl
@[simp] theorem raiseMalformedInput_ilen (s : State) : (raiseMalformedInput s).ilen = s.ilen := rfl
@[simp] theorem raiseMalformedInput_st (s : State) : (raiseMalformedInput s).st = .error := rfl
@[simp] theorem raiseMalformedInput_errcode (s : State) : (raiseMalformedInput s).errcode = .malformedInput := rfl
@[simp] theorem raiseMalformedInput_rp (s : State) : (raiseMalformedInput s).rp = 0 := rfl
@[simp] theorem raiseMalformedInput_wp (s : State) : (raiseMalformedInput s).wp = 0 := rfl
@[simp] theorem raiseMalformedInput_cur (s : State) : (raiseMalformedInput s).cur = s.cur := rfl
@[simp] theorem raiseMalformedInput_cnt (s : State) : (raiseMalformedInput s).cnt = s.cnt := rfl
@[simp] theorem raiseMalformedInput_val (s : State) : (raiseMalformedInput s).val = s.val := rfl
@[simp] theorem raiseMalformedInput_rem (s : State) : (raiseMalformedInput s).rem = 0#8 := rfl
@[simp] theorem raiseMalformedInput_ibuf (s : State) : (raiseMalformedInput s).ibuf = s.ibuf := rfl
@[simp] theorem raiseMalformedInput_obuf (s : State) : (raiseMalformedInput s).obuf = s.obuf := rfl
@[simp] theorem raiseMalformedInput_cfg (s : State) : (raiseMalformedInput s).cfg = s.cfg := rfl
@[simp] theorem raiseMalformedInput_host (s : State) : (raiseMalformedInput s).host = s.host := rfl
@[simp] theorem raiseMalformedInput_resets (s : State) : (raiseMalformedInput s).resets = s.resets := rfl

@[simp] theorem emitPair_mode (v c : Byte) (s : State) : (emitPair v c s).mode = s.mode := rfl
@[simp] theorem emitPair_ilen (v c : Byte) (s : State) : (emitPair v c s).ilen = s.ilen := rfl
@[simp] theorem emitPair_st (v c : Byte) (s : State) : (emitPair v c s).st = s.st := rfl
@[simp] theorem emitPair_errcode (v c : Byte) (s : State) : (emitPair v c s).errcode = s.errcode := rfl
@[simp] theorem emitPair_rp (v c : Byte) (s : State) : (emitPair v c s).rp = s.rp := rfl
@[simp] theorem emitPair_wp (v c : Byte) (s : State) : (emitPair v c s).wp = s.wp + 2 := rfl
@[simp] theorem emitPair_cur (v c : Byte) (s : State) : (emitPair v c s).cur = s.cur := rfl
@[simp] theorem emitPair_cnt (v c : Byte) (s : State) : (emitPair v c s).cnt = s.cnt := rfl
@[simp] theorem emitPair_val (v c : Byte) (s : State) : (emitPair v c s).val = s.val := rfl
@[simp] theorem emitPair_rem (v c : Byte) (s : State) : (emitPair v c s).rem = s.rem := rfl
@[simp] theorem emitPair_ibuf (v c : Byte) (s : State) : (emitPair v c s).ibuf = s.ibuf := rfl
@[simp] theorem emitPair_obuf (v c : Byte) (s : State) : (emitPair v c s).obuf = (s.obuf.write s.wp v).write (s.wp + 1) c := rfl
@[simp] theorem emitPair_cfg (v c : Byte) (s : State) : (emitPair v c s).cfg = s.cfg := rfl
@[simp] theorem emitPair_host (v c : Byte) (s : State) : (emitPair v c s).host = s.host := rfl
@[simp] theorem emitPair_resets (v c : Byte) (s : State) : (emitPair v c s).resets = s.resets := rfl

@[simp] theorem emitByte_mode (v : Byte) (s : State) : (emitByte v s).mode = s.mode := rfl
@[simp] theorem emitByte_ilen (v : Byte) (s : State) : (emitByte v s).ilen = s.ilen := rfl
@[simp] theorem emitByte_st (v : Byte) (s : State) : (emitByte v s).st = s.st := rfl
@[simp] theorem emitByte_errcode (v : Byte) (s : State) : (emitByte v s).errcode = s.errcode := rfl
@[simp] theorem emitByte_rp (v : Byte) (s : State) : (emitByte v s).rp = s.rp := rfl
@[simp] theorem emitByte_wp (v : Byte) (s : State) : (emitByte v s).wp = s.wp + 1 := rfl
@[simp] theorem emitByte_cur (v : Byte) (s : State) : (emitByte v s).cur = s.cur := rfl
@[simp] theorem emitByte_cnt (v : Byte) (s : State) : (emitByte v s).cnt = s.cnt := rfl
@[simp] theorem emitByte_val (v : Byte) (s : State) : (emitByte v s).val = s.val := rfl
@[simp] theorem emitByte_rem (v : Byte) (s : State) : (emitByte v s).rem = s.rem := rfl
@[simp] theorem emitByte_ibuf (v : Byte) (s : State) : (emitByte v s).ibuf = s.ibuf := rfl
@[simp] theorem emitByte_obuf (v : Byte) (s : State) : (emitByte v s).obuf = s.obuf.write s.wp v := rfl
@[simp] theorem emitByte_cfg (v : Byte) (s : State) : (emitByte v s).cfg = s.cfg := rfl
@[simp] theorem emitByte_host (v : Byte) (s : State) : (emitByte v s).host = s.host := rfl
@[simp] theorem emitByte_resets (v : Byte) (s : State) : (emitByte v s).resets = s.resets := rfl

@[simp] theorem answer_mode (a : Answer) (s : State) : (s.answer a).mode = s.mode := rfl
@[simp] theorem answer_ilen (a : Answer) (s : State) : (s.answer a).ilen = s.ilen := rfl
@[simp] theorem answer_st (a : Answer) (s : State) : (s.answer a).st = s.st := rfl
@[simp] theorem answer_errcode (a : Answer) (s : State) : (s.answer a).errcode = s.errcode := rfl
@[simp] theorem answer_rp (a : Answer) (s : State) : (s.answer a).rp = s.rp := rfl
@[simp] theorem answer_wp (a : Answer) (s : State) : (s.answer a).wp = s.wp := rfl
@[simp] theorem answer_cur (a : Answer) (s : State) : (s.answer a).cur = s.cur := rfl
@[simp] theorem answer_cnt (a : Answer) (s : State) : (s.answer a).cnt = s.cnt := rfl
@[simp] theorem answer_val (a : Answer) (s : State) : (s.answer a).val = s.val := rfl
@[simp] theorem answer_rem (a : Answer) (s : State) : (s.answer a).rem = s.rem := rfl
@[simp] theorem answer_ibuf (a : Answer) (s : State) : (s.answer a).ibuf = s.ibuf := rfl
@[simp] theorem answer_obuf (a : Answer) (s : State) : (s.answer a).obuf = s.obuf := rfl
@[simp] theorem answer_cfg (a : Answer) (s : State) : (s.answer a).cfg = s.cfg := rfl
@[simp] theorem answer_host (a : Answer) (s : State) : (s.answer a).host = { s.host with seen := s.host.seen ++ [a] } := rfl
@[simp] theorem answer_resets (a : Answer) (s : State) : (s.answer a).resets = s.resets := rfl

@[simp] theorem awaitEnd_mode (s : State) : s.awaitEnd.mode = s.mode := rfl
@[simp] theorem awaitEnd_ilen (s : State) : s.awaitEnd.ilen = s.ilen := rfl
@[simp] theorem awaitEnd_st (s : State) : s.awaitEnd.st = s.st := rfl
@[simp] theorem awaitEnd_errcode (s : State) : s.awaitEnd.errcode = s.errcode := rfl
@[simp] theorem awaitEnd_rp (s : State) : s.awaitEnd.rp = s.rp := rfl
@[simp] theorem awaitEnd_wp (s : State) : s.awaitEnd.wp = s.wp := rfl
@[simp] theorem awaitEnd_cur (s : State) : s.awaitEnd.cur = s.cur := rfl
@[simp] theorem awaitEnd_cnt (s : State) : s.awaitEnd.cnt = s.cnt := rfl
@[simp] theorem awaitEnd_val (s : State) : s.awaitEnd.val = s.val := rfl
@[simp] theorem awaitEnd_rem (s : State) : s.awaitEnd.rem = s.rem := rfl
@[simp] theorem awaitEnd_ibuf (s : State) : s.awaitEnd.ibuf = s.ibuf := rfl
@[simp] theorem awaitEnd_obuf (s : State) : s.awaitEnd.obuf = s.obuf := rfl
@[simp] theorem awaitEnd_cfg (s : State) : s.awaitEnd.cfg = s.cfg := rfl
@[simp] theorem awaitEnd_resets (s : State) : s.awaitEnd.resets = s.resets := rfl
@[simp] theorem awaitEnd_host (s : State) : s.awaitEnd.host = { s.host with awaiting := true } := rfl

/-- Reading `ST` changes the host's side alone. -/
theorem seeStatus_eq (s : State) : ∃ b, s.seeStatus = { s with host := { s.host with awaiting := b } } := by
  unfold State.seeStatus
  split
  · exact ⟨_, rfl⟩
  · exact ⟨s.host.awaiting, rfl⟩

@[simp] theorem seeStatus_mode (s : State) : s.seeStatus.mode = s.mode := by
  obtain ⟨b, h⟩ := seeStatus_eq s; rw [h]
@[simp] theorem seeStatus_ilen (s : State) : s.seeStatus.ilen = s.ilen := by
  obtain ⟨b, h⟩ := seeStatus_eq s; rw [h]
@[simp] theorem seeStatus_st (s : State) : s.seeStatus.st = s.st := by
  obtain ⟨b, h⟩ := seeStatus_eq s; rw [h]
@[simp] theorem seeStatus_errcode (s : State) : s.seeStatus.errcode = s.errcode := by
  obtain ⟨b, h⟩ := seeStatus_eq s; rw [h]
@[simp] theorem seeStatus_rp (s : State) : s.seeStatus.rp = s.rp := by
  obtain ⟨b, h⟩ := seeStatus_eq s; rw [h]
@[simp] theorem seeStatus_wp (s : State) : s.seeStatus.wp = s.wp := by
  obtain ⟨b, h⟩ := seeStatus_eq s; rw [h]
@[simp] theorem seeStatus_cur (s : State) : s.seeStatus.cur = s.cur := by
  obtain ⟨b, h⟩ := seeStatus_eq s; rw [h]
@[simp] theorem seeStatus_cnt (s : State) : s.seeStatus.cnt = s.cnt := by
  obtain ⟨b, h⟩ := seeStatus_eq s; rw [h]
@[simp] theorem seeStatus_val (s : State) : s.seeStatus.val = s.val := by
  obtain ⟨b, h⟩ := seeStatus_eq s; rw [h]
@[simp] theorem seeStatus_rem (s : State) : s.seeStatus.rem = s.rem := by
  obtain ⟨b, h⟩ := seeStatus_eq s; rw [h]
@[simp] theorem seeStatus_ibuf (s : State) : s.seeStatus.ibuf = s.ibuf := by
  obtain ⟨b, h⟩ := seeStatus_eq s; rw [h]
@[simp] theorem seeStatus_obuf (s : State) : s.seeStatus.obuf = s.obuf := by
  obtain ⟨b, h⟩ := seeStatus_eq s; rw [h]
@[simp] theorem seeStatus_cfg (s : State) : s.seeStatus.cfg = s.cfg := by
  obtain ⟨b, h⟩ := seeStatus_eq s; rw [h]
@[simp] theorem seeStatus_resets (s : State) : s.seeStatus.resets = s.resets := by
  obtain ⟨b, h⟩ := seeStatus_eq s; rw [h]
@[simp] theorem seeStatus_moves (s : State) : s.seeStatus.host.moves = s.host.moves := by
  obtain ⟨b, h⟩ := seeStatus_eq s; rw [h]

theorem curByte_of_cur {s : State} {v : Byte} (h : s.cur = some v) : s.curByte = v := by simp [State.curByte, h]
theorem valByte_of_val {s : State} {v : Byte} (h : s.val = some v) : s.valByte = v := by simp [State.valByte, h]

@[simp] theorem hReset_mode (s : State) : (hReset s).mode = none := rfl
@[simp] theorem hReset_ilen (s : State) : (hReset s).ilen = none := rfl
@[simp] theorem hReset_st (s : State) : (hReset s).st = .idle := rfl
@[simp] theorem hReset_errcode (s : State) : (hReset s).errcode = .none := rfl
@[simp] theorem hReset_rp (s : State) : (hReset s).rp = 0 := rfl
@[simp] theorem hReset_wp (s : State) : (hReset s).wp = 0 := rfl
@[simp] theorem hReset_cur (s : State) : (hReset s).cur = none := rfl
@[simp] theorem hReset_cnt (s : State) : (hReset s).cnt = 0#8 := rfl
@[simp] theorem hReset_val (s : State) : (hReset s).val = none := rfl
@[simp] theorem hReset_rem (s : State) : (hReset s).rem = 0#8 := rfl
@[simp] theorem hReset_ibuf (s : State) : (hReset s).ibuf = s.ibuf := rfl
@[simp] theorem hReset_obuf (s : State) : (hReset s).obuf = s.obuf := rfl
@[simp] theorem hReset_cfg (s : State) : (hReset s).cfg = s.cfg := rfl
@[simp] theorem hReset_host (s : State) : (hReset s).host = { s.host with awaiting := false } := rfl
@[simp] theorem hReset_resets (s : State) : (hReset s).resets = s.resets + 1 := rfl

end Sys2Proof.Machine
end

