-- ==== Sys2Proof/Laws/Step.lean ====
section
/-! SUPPORT. What a turn can do, said once: one inversion for each meaning and each action, and for the core's and the
host's turn as a whole. Later proofs cite these instead of unfolding `step`. -/

namespace Sys2Proof.Machine

/-- Taking a turn off the list changes nothing of the core. -/
theorem turn_eq {s s0 : State} {t : Turn} (h : s.turn = (t, s0)) :
    s0 = { s with host := { s.host with moves := s0.host.moves } } := by
  unfold State.turn at h
  split at h <;> cases h <;> rfl

/-- The same, field by field, for use where `turn_eq` would rewrite in a circle. -/
theorem turn_fields {s s0 : State} {t : Turn} (h : s.turn = (t, s0)) :
    s0.mode = s.mode ∧ s0.ilen = s.ilen ∧ s0.st = s.st ∧ s0.errcode = s.errcode ∧ s0.rp = s.rp ∧ s0.wp = s.wp ∧
    s0.cur = s.cur ∧ s0.cnt = s.cnt ∧ s0.val = s.val ∧ s0.rem = s.rem ∧ s0.ibuf = s.ibuf ∧ s0.obuf = s.obuf ∧
    s0.cfg = s.cfg ∧ s0.host.seen = s.host.seen ∧ s0.host.awaiting = s.host.awaiting ∧ s0.resets = s.resets := by
  unfold State.turn at h
  split at h <;> cases h <;> simp

/-- The turns left after one is taken. -/
theorem turn_moves {s s0 : State} {t : Turn} (h : s.turn = (t, s0)) :
    (s.host.moves = [] ∧ t = .core ∧ s0 = s) ∨ s.host.moves = t :: s0.host.moves := by
  unfold State.turn at h
  split at h <;> cases h <;> simp_all

theorem turn_nil {s : State} (h : s.host.moves = []) : s.turn = (.core, s) := by
  simp [State.turn, h]

@[simp] theorem runFetched_other (o : Host.Outcome State Fault Refusal) : runFetched (.other o) = o := rfl

@[simp] theorem runFetched_instr (i : Instr) (s : State) : runFetched (.instr i s) = exec i s := rfl

theorem step_core {s s0 : State} (h : s.turn = (.core, s0)) :
    step s = runFetched (fetchCore s0) := by
  simp [step, fetch, h]

theorem step_act {s s0 : State} {a : HostMove} (h : s.turn = (.act a, s0)) :
    step s = runFetched (fetchHost a s0) := by
  simp [step, fetch, h]

/-- A launch check that passes changes nothing. -/
theorem launch_next {len : Nat} {s t : State} :
    launch len s = .next t ↔ t = s ∧ fitsWidth s.cfg len = true ∧ fitsRoom s.cfg len = true := by
  unfold launch
  split
  · next h => simp at h; simp [h]
  · next h =>
    split
    · next h' => simp at h'; simp [h']
    · next h' => simp at h h'; simp [h, h', eq_comm]

/-- When an entry runs on its operand, and on which. -/
theorem withOperand_next {s t : State} {entry : Nat → List Byte → Host.Outcome State Fault Refusal} :
    withOperand s entry = .next t ↔ ∃ n x, s.ilen = some n ∧ fitsWidth s.cfg n = true ∧
      buffersOverlap s.cfg n = false ∧ s.input n = some x ∧ entry n x = .next t := by
  unfold withOperand
  cases hn : s.ilen with
  | none => simp
  | some n =>
    cases hw : fitsWidth s.cfg n <;> cases ho : buffersOverlap s.cfg n <;> cases hx : s.input n <;> simp [*]

/-- An entry whose operand is there and whose duties are kept. -/
theorem withOperand_eq {s : State} {n : Nat} {x : List Byte}
    {entry : Nat → List Byte → Host.Outcome State Fault Refusal} (hn : s.ilen = some n)
    (hw : fitsWidth s.cfg n = true) (ho : buffersOverlap s.cfg n = false) (hx : s.input n = some x) :
    withOperand s entry = entry n x := by
  simp [withOperand, *]

/-- Everything `ENCODE` can do. -/
theorem execEncode_next {s t : State} (h : execEncode s = .next t) :
    (s.st = .run ∧ t = s) ∨
    ∃ n x, Ready .encode s n x (enc x).length ∧ t = encodeEntry s := by
  unfold execEncode at h
  split at h
  · next hr => cases h; exact .inl ⟨hr, rfl⟩
  · next hr =>
    split at h
    · cases h
    · next hm =>
      obtain ⟨n, x, hn, hw, ho, hx, hl⟩ := withOperand_next.mp h
      obtain ⟨rfl, hf, hc⟩ := launch_next.mp hl
      exact .inr ⟨n, x, ⟨hr, not_not.mp hm, hn, hx, hw, ho, hf, hc⟩, rfl⟩

/-- Everything `DECODE` can do. -/
theorem execDecode_next {s t : State} (h : execDecode s = .next t) :
    (s.st = .run ∧ t = s) ∨
    (∃ n x, s.st ≠ .run ∧ s.mode = some .decode ∧ s.ilen = some n ∧ fitsWidth s.cfg n = true ∧
      buffersOverlap s.cfg n = false ∧ s.input n = some x ∧ n % 2 = 1 ∧ t = raiseMalformedInput s) ∨
    ∃ n x, n % 2 = 0 ∧ Ready .decode s n x (expand x).length ∧ t = decodeEntry s := by
  unfold execDecode at h
  split at h
  · next hr => cases h; exact .inl ⟨hr, rfl⟩
  · next hr =>
    split at h
    · cases h
    · next hm =>
      obtain ⟨n, x, hn, hw, ho, hx, hl⟩ := withOperand_next.mp h
      split at hl
      · next hodd =>
        cases hl
        exact .inr (.inl ⟨n, x, hr, not_not.mp hm, hn, hw, ho, hx, by simpa [oddLength] using hodd, rfl⟩)
      · next hodd =>
        obtain ⟨rfl, hf, hc⟩ := launch_next.mp hl
        exact .inr (.inr ⟨n, x, by simp [oddLength] at hodd; omega,
          ⟨hr, not_not.mp hm, hn, hx, hw, ho, hf, hc⟩, rfl⟩)

/-- Everything reading a record can do. -/
theorem readRecord_next {v c : Byte} {s t : State} (h : readRecord v c s = .next t) :
    ∃ n, s.st = .run ∧ s.mode = some .decode ∧ s.rem = 0#8 ∧ s.ilen = some n ∧ s.rp + 1 < n ∧
      t = { s with val := some v, rem := c, rp := s.rp + 2 } := by
  unfold readRecord at h
  split at h
  · cases h
  · next hg =>
    split at h
    · cases h
    · next n hn =>
      split at h
      · next hlt =>
        cases h
        simp [MicroStep.guard, State.running, State.pending] at hg
        exact ⟨n, hg.1.1.1, hg.1.1.2, hg.1.2, hn, hlt, rfl⟩
      · cases h

/-- Everything the core's turn can do, from the state with the turn taken (42_control.md R166). -/
inductive CoreStep (s : State) : State → Prop where
  | idle : s.st ≠ .run → CoreStep s s
  | eOpen {n : Nat} {x : Byte} : s.st = .run → s.mode = some .encode → s.ilen = some n → s.rp < n → s.cnt = 0#8 →
      s.ibuf.read s.rp = some x → CoreStep s { s with cur := some x, cnt := 1#8, rp := s.rp + 1 }
  | eExtend {n : Nat} : s.st = .run → s.mode = some .encode → s.ilen = some n → s.rp < n → s.cnt ≠ 0#8 →
      s.ibuf.read s.rp = some s.curByte → s.cnt ≠ maxRun → CoreStep s { s with cnt := s.cnt + 1#8, rp := s.rp + 1 }
  | eFlush {n : Nat} {x : Byte} : s.st = .run → s.mode = some .encode → s.ilen = some n → s.rp < n → s.cnt ≠ 0#8 →
      s.ibuf.read s.rp = some x → (x ≠ s.curByte ∨ s.cnt = maxRun) →
      CoreStep s { s with obuf := (s.obuf.write s.wp s.curByte).write (s.wp + 1) s.cnt, wp := s.wp + 2, cur := some x,
                          cnt := 1#8, rp := s.rp + 1 }
  | eFinalEmpty {n : Nat} : s.st = .run → s.mode = some .encode → s.ilen = some n → s.rp = n → s.cnt = 0#8 →
      CoreStep s { s with cnt := 0#8, st := .done }
  | eFinalFlush {n : Nat} : s.st = .run → s.mode = some .encode → s.ilen = some n → s.rp = n → s.cnt ≠ 0#8 →
      CoreStep s { s with obuf := (s.obuf.write s.wp s.curByte).write (s.wp + 1) s.cnt, wp := s.wp + 2, cnt := 0#8,
                          st := .done }
  | dRead {n : Nat} {v c : Byte} : s.st = .run → s.mode = some .decode → s.ilen = some n → s.rp + 1 < n →
      s.rem = 0#8 → s.ibuf.read s.rp = some v → s.ibuf.read (s.rp + 1) = some c →
      CoreStep s { s with val := some v, rem := c, rp := s.rp + 2 }
  | dEmit : s.st = .run → s.mode = some .decode → s.rem ≠ 0#8 →
      CoreStep s { s with obuf := s.obuf.write s.wp s.valByte, wp := s.wp + 1, rem := s.rem - 1#8 }
  | dFinal {n : Nat} : s.st = .run → s.mode = some .decode → s.ilen = some n → s.rp = n → s.rem = 0#8 →
      CoreStep s { s with st := .done }

theorem enabled_guard {s : State} {m : MicroStep} (h : s.enabled = some m) : m.guard s = true := by
  simpa using List.find?_some h

theorem running_iff {s : State} {m : Mode} : s.running m = true ↔ s.st = .run ∧ s.mode = some m := by
  simp [State.running]

theorem more_iff {s : State} : s.more = true ↔ ∃ n, s.ilen = some n ∧ s.rp < n := by
  unfold State.more
  cases s.ilen <;> simp

theorem exhausted_iff {s : State} : s.exhausted = true ↔ s.ilen = some s.rp := by
  simp [State.exhausted]

theorem same_iff {s : State} {b : Bool} :
    s.same = some b ↔ ∃ x, s.ibuf.read s.rp = some x ∧ b = (x == s.curByte) := by
  unfold State.same State.peek
  cases s.ibuf.read s.rp <;> simp [eq_comm]

/-- Everything the pair reader's fetch and the meaning it runs can do. -/
theorem fetchRecord_next {n : Nat} {s t : State}
    (h : runFetched (fetchRecord n s) = .next t) :
    ∃ v c, s.st = .run ∧ s.mode = some .decode ∧ s.rem = 0#8 ∧ s.rp + 1 < n ∧ s.ibuf.read s.rp = some v ∧
      s.ibuf.read (s.rp + 1) = some c ∧ t = { s with val := some v, rem := c, rp := s.rp + 2 } := by
  unfold fetchRecord State.recordBytes runFetched at h
  cases hv : s.ibuf.read s.rp with
  | none => simp [hv] at h
  | some v =>
    by_cases hlt : s.rp + 1 < n
    · cases hc : s.ibuf.read (s.rp + 1) with
      | none => simp [hv, hlt, hc] at h
      | some c =>
        simp only [hv, hlt, hc, if_true, decode, recordOf] at h
        have hr : readRecord v c s = .next t := by
          by_cases h0 : c = 0#8
          · subst h0; simpa [exec, execPairZero] using h
          · simpa only [h0, if_false, exec, execPair] using h
        obtain ⟨k, h1, h2, h3, h4, h5, h6⟩ := readRecord_next hr
        exact ⟨v, c, h1, h2, h3, hlt, rfl, rfl, h6⟩
    · simp [hv, hlt, decode] at h

/-- The core's turn, whatever it does, is one of the cases of `CoreStep`. -/
theorem core_next {s s0 t : State} (hs : s.turn = (.core, s0)) (h : step s = .next t) : CoreStep s0 t := by
  rw [step_core hs] at h
  unfold fetchCore at h
  split at h
  · next hr => cases h; exact .idle hr
  · split at h
    · next he =>
      have hg := enabled_guard he
      simp only [MicroStep.guard, Bool.and_eq_true, running_iff, more_iff] at hg
      obtain ⟨⟨⟨h1, h2⟩, n, h3, h4⟩, h5⟩ := hg
      unfold eOpen at h
      cases hx : s0.ibuf.read s0.rp with
      | none => simp [State.peek, hx] at h
      | some x =>
        simp only [State.peek, hx, runFetched_other, Host.Outcome.next.injEq] at h
        subst h
        exact .eOpen h1 h2 h3 h4 (by simpa [State.pairOpen] using h5) hx
    · next he =>
      have hg := enabled_guard he
      simp only [MicroStep.guard, Bool.and_eq_true, running_iff, more_iff, beq_iff_eq, same_iff] at hg
      obtain ⟨⟨⟨⟨⟨h1, h2⟩, n, h3, h4⟩, h5⟩, x, h6, h8⟩, h9⟩ := hg
      obtain rfl : x = s0.curByte := by simpa using h8.symm
      simp only [eExtend, runFetched_other, Host.Outcome.next.injEq] at h
      subst h
      exact .eExtend h1 h2 h3 h4 (by simpa [State.pairOpen] using h5) h6 (by simpa [State.full] using h9)
    · next he =>
      have hg := enabled_guard he
      simp only [MicroStep.guard, Bool.and_eq_true, running_iff, more_iff, beq_iff_eq, same_iff] at hg
      obtain ⟨⟨⟨⟨h1, h2⟩, n, h3, h4⟩, h5⟩, x, h6, h8⟩ := hg
      simp only [eChange, flushAndRestart, State.peek, h6, runFetched,
        Host.Outcome.next.injEq] at h
      subst h
      exact .eFlush h1 h2 h3 h4 (by simpa [State.pairOpen] using h5) h6
        (.inl (by simpa using h8.symm))
    · next he =>
      have hg := enabled_guard he
      simp only [MicroStep.guard, Bool.and_eq_true, running_iff, more_iff, beq_iff_eq, same_iff,
        State.full] at hg
      obtain ⟨⟨⟨⟨h1, h2⟩, n, h3, h4⟩, h5⟩, x, h6, h8⟩ := hg
      simp only [eSplit, flushAndRestart, State.peek, h6, runFetched,
        Host.Outcome.next.injEq] at h
      subst h
      exact .eFlush h1 h2 h3 h4 (by rw [h5]; decide) h6 (.inr h5)
    · next he =>
      have hg := enabled_guard he
      simp only [MicroStep.guard, Bool.and_eq_true, running_iff, exhausted_iff] at hg
      obtain ⟨⟨h1, h2⟩, h3⟩ := hg
      unfold eFinal at h
      split at h
      · next h0 =>
        simp only [runFetched_other, Host.Outcome.next.injEq] at h
        subst h
        exact .eFinalEmpty h1 h2 h3 rfl h0
      · next h0 =>
        simp only [runFetched_other, Host.Outcome.next.injEq] at h
        subst h
        exact .eFinalFlush h1 h2 h3 rfl h0
    · next he =>
      have hg := enabled_guard he
      simp only [MicroStep.guard, Bool.and_eq_true, running_iff, State.pending] at hg
      obtain ⟨⟨h1, h2⟩, h3⟩ := hg
      simp only [dEmit, runFetched_other, Host.Outcome.next.injEq] at h
      subst h
      exact .dEmit h1 h2 (by simpa using h3)
    · next he =>
      have hg := enabled_guard he
      simp only [MicroStep.guard, Bool.and_eq_true, running_iff, exhausted_iff, State.pending] at hg
      obtain ⟨⟨⟨h1, h2⟩, h3⟩, h4⟩ := hg
      simp only [dFinal, runFetched_other, Host.Outcome.next.injEq] at h
      subst h
      exact .dFinal h1 h2 h4 rfl (by simpa using h3)
    · next n he hn =>
      obtain ⟨v, c, h1, h2, h3, h4, h5, h6, rfl⟩ := fetchRecord_next h
      exact .dRead h1 h2 hn h4 h3 h5 h6
    · simp at h
    · simp at h

/-- A turn of the host that only looks. -/
def HostMove.isRead : HostMove → Bool
  | .read _ => true
  | .readObuf _ => true
  | .readIbuf _ => true
  | .reset => false
  | .writeMode _ => false
  | .writeIlen _ => false
  | .start => false
  | .writeIbuf _ _ => false

/-- A turn of the host that accesses a buffer. -/
def HostMove.touchesBuffer : HostMove → Bool
  | .writeIbuf _ _ => true
  | .readObuf _ => true
  | .readIbuf _ => true
  | .reset => false
  | .writeMode _ => false
  | .writeIlen _ => false
  | .start => false
  | .read _ => false

theorem buffersHeld_eq_false {s : State} : s.buffersHeld = false ↔ s.st ≠ .run ∧ s.host.awaiting = false := by
  simp [State.buffersHeld]

/-- A launch is ready whatever the host's side is. -/
theorem Ready.of_awaitEnd {m : Mode} {s : State} {n len : Nat} {x : List Byte} (h : Ready m s.awaitEnd n x len) :
    Ready m s n x len :=
  ⟨h.idle, h.mode, h.ilen, h.input, h.width, h.apart, h.lenFits, h.room⟩

/-- Everything the host's turn can do, from the state with the turn taken (42_control.md R160). -/
inductive HostStep (s : State) : HostMove → State → Prop where
  | reset : HostStep s .reset (hReset s)
  | ignoredStart : s.st = .run → HostStep s .start s
  | ignoredMode (m : Mode) : s.st = .run → HostStep s (.writeMode m) s
  | ignoredIlen (n : Nat) : s.st = .run → HostStep s (.writeIlen n) s
  | writeMode (m : Mode) : s.st ≠ .run → HostStep s (.writeMode m) { s with mode := some m }
  | writeIlen (n : Nat) : s.st ≠ .run → fitsWidth s.cfg n = true → HostStep s (.writeIlen n) { s with ilen := some n }
  | encode {n : Nat} {x : List Byte} : Ready .encode s n x (enc x).length → HostStep s .start (encodeEntry s.awaitEnd)
  | decode {n : Nat} {x : List Byte} : n % 2 = 0 → Ready .decode s n x (expand x).length →
      HostStep s .start (decodeEntry s.awaitEnd)
  | malformed {n : Nat} {x : List Byte} : s.st ≠ .run → s.mode = some .decode → s.ilen = some n →
      fitsWidth s.cfg n = true → buffersOverlap s.cfg n = false → s.input n = some x → n % 2 = 1 →
      HostStep s .start (raiseMalformedInput s.awaitEnd)
  | read (a : HostMove) (r : Answer) : a.isRead = true → (a.touchesBuffer = true → s.buffersHeld = false) →
      HostStep s a (s.answer r)
  | readStatus (r : Answer) : HostStep s (.read .st) (s.answer r).seeStatus
  | writeIbuf (i : Nat) (v : Byte) : s.st ≠ .run → s.host.awaiting = false → fitsWidth s.cfg i = true →
      HostStep s (.writeIbuf i v) { s with ibuf := s.ibuf.write i v }

/-- `H_START`, whatever it does. -/
theorem start_next {s t : State}
    (h : runFetched (fetchCommand s) = .next t) : HostStep s .start t := by
  unfold fetchCommand runFetched at h
  by_cases hr : s.st = .run
  · simp only [hr, if_true, Host.Outcome.next.injEq] at h
    subst h
    exact .ignoredStart hr
  · cases hm : s.mode with
    | none => simp [hr, hm] at h
    | some m =>
      cases m with
      | encode =>
        simp [hr, hm, Mode.code, Sys2Proof.decode, exec] at h
        rcases execEncode_next h with ⟨h1, -⟩ | ⟨n, x, hR, rfl⟩
        · exact absurd h1 hr
        · exact .encode hR.of_awaitEnd
      | decode =>
        simp [hr, hm, Mode.code, Sys2Proof.decode, exec] at h
        rcases execDecode_next h with ⟨h1, -⟩ | ⟨n, x, h1, h2, h3, h4, h5, h6, h7, rfl⟩ | ⟨n, x, he, hR, rfl⟩
        · exact absurd h1 hr
        · exact .malformed h1 h2 h3 h4 h5 h6 h7
        · exact .decode he hR.of_awaitEnd

/-- A read, whatever item it names, only records an answer, and a read of `ST` that the host has seen it. -/
theorem hRead_next {r : Item} {s t : State} (h : hRead r s = .next t) :
    ∃ a, t = s.answer a ∨ r = .st ∧ t = (s.answer a).seeStatus := by
  unfold hRead at h
  split at h
  · split at h
    · cases h
    · cases h; exact ⟨_, .inl rfl⟩
  · split at h
    · cases h
    · cases h; exact ⟨_, .inl rfl⟩
  · cases h
  · cases h; exact ⟨_, .inr ⟨rfl, rfl⟩⟩
  · cases h; exact ⟨_, .inl rfl⟩
  · cases h; exact ⟨_, .inl rfl⟩

/-- The host's turn, whatever it does, is one of the cases of `HostStep`. -/
theorem host_next {s s0 t : State} {a : HostMove} (hs : s.turn = (.act a, s0)) (h : step s = .next t) :
    HostStep s0 a t := by
  rw [step_act hs] at h
  cases a with
  | reset => simp only [fetchHost, runFetched_other, Host.Outcome.next.injEq] at h; subst h; exact .reset
  | writeMode m =>
    simp only [fetchHost, hWriteMode] at h
    split at h
    · next hr => cases h; exact .ignoredMode m hr
    · next hr => cases h; exact .writeMode m hr
  | writeIlen n =>
    simp only [fetchHost, hWriteIlen] at h
    split at h
    · cases h
    · next hf =>
      split at h
      · next hr => cases h; exact .ignoredIlen n hr
      · next hr => cases h; exact .writeIlen n hr (by simpa using hf)
  | start => exact start_next h
  | read r =>
    obtain ⟨a, rfl | ⟨rfl, rfl⟩⟩ := hRead_next (show hRead r s0 = .next t from h)
    · exact .read (.read r) a rfl nofun
    · exact .readStatus a
  | writeIbuf i v =>
    simp only [fetchHost, hWriteIbuf] at h
    split at h
    · cases h
    · next hr =>
      rw [Bool.not_eq_true, buffersHeld_eq_false] at hr
      split at h
      · cases h
      · next hf => cases h; exact .writeIbuf i v hr.1 hr.2 (by simpa using hf)
  | readObuf i =>
    simp only [fetchHost, hReadObuf] at h
    split at h
    · cases h
    · next hr =>
      split at h
      · split at h
        · cases h
        · cases h; exact .read (.readObuf i) _ rfl fun _ => by simpa using hr
      · cases h
  | readIbuf i =>
    simp only [fetchHost, hReadIbuf] at h
    split at h
    · cases h
    · next hr =>
      split at h
      · cases h
      · split at h
        · cases h
        · cases h; exact .read (.readIbuf i) _ rfl fun _ => by simpa using hr

end Sys2Proof.Machine
end

