-- ==== Sys2Proof/Tests/Slice0.lean ====
section
/-! SUPPORT. The model's own tests. Expected values come from the spec: its encoding tables, its rules' examples, the traces
and vectors of 95_test_vectors.md (named in each comment). Then one witness for the hypotheses of each statement. -/

namespace Sys2Proof.Tests

open Sys2Proof Sys2Proof.Machine

/-! ### WellFormed, Decode, encoder -/

/-- The one check of WellFormed refuses a `PAIR` with count 0 (opcode_table.json, "constraint": count != 0). -/
theorem test_wellFormed_pair_count_zero : Instr.wellFormed (.pair 0x41 0) = false := by decide

theorem test_wellFormed_accepts : Instr.wellFormed .encode = true ∧ Instr.wellFormed .decode = true ∧
    Instr.wellFormed (.pairZero 0x41) = true ∧ Instr.wellFormed (.pair 0 255) = true := by decide

/-- Row `ENCODE`, encoding `0`. -/
theorem test_decode_encode_word : decodeTableWord 8 0b0 = some .encode := by decide

/-- Row `DECODE`, encoding `1`. -/
theorem test_decode_decode_word : decodeTableWord 8 0b1 = some .decode := by decide

/-- Row `PAIR`, `vvvvvvvvcccccccc`: value 0x41 = 01000001, count 45 = 00101101 (source S1). -/
theorem test_decode_pair_word : decodeTableWord 16 0b0100000100101101 = some (.pair 0x41 45) := by decide

/-- Row `PAIR_ZERO`, `vvvvvvvv00000000`: value 0xFF. -/
theorem test_decode_pairZero_word : decodeTableWord 16 0b1111111100000000 = some (.pairZero 0xFF) := by decide

/-- Value 0 with count 255 (R150, `[0, 255]`): the count is the low byte of the word. -/
theorem test_decode_value_zero : decodeTableWord 16 0b0000000011111111 = some (.pair 0 255) := by decide

theorem test_decode_two_is_no_command : decodeTableWord 8 2 = none := by decide

/-- DV17, `[41,02,42]`: a record cut in half. -/
theorem test_decodeStream_dangling : decodeStream [0x41, 2, 0x42] = .error .truncatedRecord := by rfl

theorem test_encode_pair : encode (.pair 0x41 45) = [0x41, 45] := by decide

/-! ### The functions (95_test_vectors.md, sections 1 and 2) -/

/-- EV6. -/
theorem test_enc_EV6 : enc [0x41, 0x42, 0x41] = [0x41, 1, 0x42, 1, 0x41, 1] := by decide

/-- EV11. -/
theorem test_enc_EV11 : enc [0, 0, 255, 255, 255, 0] = [0, 2, 255, 3, 0, 1] := by decide

/-- DV12: a zero count is skipped. -/
theorem test_dec_DV12 : dec [0x41, 0, 0x42, 2] = some [0x42, 0x42] := by decide

/-- S6. -/
theorem test_dec_S6 : dec [5] = none := by decide

/-- T5: canonical, valid but not canonical, not valid. -/
theorem test_canonical_T5 : CanonicalEncoded [0x41, 255, 0x41, 1] ∧ ¬ CanonicalEncoded [0x41, 254, 0x41, 1] ∧
    ValidEncoded [0x41, 254, 0x41, 1] ∧ ¬ ValidEncoded [0x41, 0] := by
  simp [CanonicalEncoded, ValidEncoded, records, chained, maxRun]

/-! ### Small states -/

/-- A state outside `RUN`, `MODE` and `ILEN` written, the given input bytes. -/
def ready (m : Mode) (n : Nat) (ib : Memory) : State :=
  { State.reset with mode := some m, ilen := some n, ibuf := ib }

/-- A running state with the given input bytes, nothing read yet. -/
def running (m : Mode) (n : Nat) (ib : Memory) : State := { ready m n ib with st := .run }

/-- The next state, where there is one. -/
def nextOf : Host.Outcome State Fault Refusal → Option State
  | .next s => some s
  | .fault _ => none
  | .refused _ => none

/-- The state, with a host move as the next turn. -/
def withMove (a : HostMove) (s : State) : State := { s with host := { s.host with moves := [.act a] } }

/-- The input of program P1. -/
def ibufP1 : Memory := [(0, 0x41), (1, 0x41), (2, 0x41), (3, 0x42), (4, 0x43), (5, 0x43)]

/-- The input of program P2. -/
def ibufP2 : Memory := [(0, 0x41), (1, 3), (2, 0x42), (3, 1), (4, 0x43), (5, 2)]

/-! ### Meanings: one step each -/

/-- KV4: the entry of `ENCODE`. -/
theorem test_encode_entry_KV4 :
    (nextOf (exec .encode { ready .encode 2 [(0, 9), (1, 9)] with rp := 7, wp := 4, cnt := 3, st := .done })).map
      (fun t => (t.st, t.rp, t.wp, t.cnt)) = some (.run, 0, 0, 0) := by decide

/-- R44: `ILEN` unwritten is refused, not taken as zero. -/
theorem test_encode_ilen_unwritten :
    (nextOf (exec .encode { ready .encode 0 [] with ilen := none })).isNone = true := by decide

/-- KV6: `DECODE` of odd length from `DONE` with a result. -/
theorem test_decode_odd_KV6 :
    (nextOf (exec .decode { ready .decode 3 [(0, 0x41), (1, 2), (2, 5)] with st := .done, wp := 6 })).map
      (fun t => (t.st, t.errcode, t.wp)) = some (.error, .malformedInput, 0) := by decide

/-- KV5: `DECODE` of even length. -/
theorem test_decode_even_KV5 :
    (nextOf (exec .decode { ready .decode 2 [(0, 0x41), (1, 2)] with wp := 6, rem := 5 })).map
      (fun t => (t.st, t.errcode, t.wp, t.rem)) = some (.run, .none, 0, 0) := by decide

/-- P2, step 1: `D_READ` of (41, 3). -/
theorem test_pair_P2_1 :
    (nextOf (exec (.pair 0x41 3) (running .decode 6 ibufP2))).map (fun t => (t.val, t.rem, t.rp, t.wp)) =
      some (some 0x41, 3, 2, 0) := by decide

/-- P5, step 4: `D_READ` of a zero count. -/
theorem test_pairZero_P5_4 :
    (nextOf (exec (.pairZero 0x41) { running .decode 6 [] with rp := 2, wp := 2, rem := 0 })).map
      (fun t => (t.val, t.rem, t.rp, t.wp, t.st)) = some (some 0x41, 0, 4, 2, .run) := by decide

/-! ### Micro-steps and host actions -/

/-- P1, step 1: `E_OPEN`. -/
theorem test_eOpen_P1_1 :
    (nextOf (step (running .encode 6 ibufP1))).map (fun t => (t.rp, t.cur, t.cnt, t.wp)) =
      some (1, some 0x41, 1, 0) := by decide

/-- P1, step 4: `E_CHANGE` writes the pair of before the step. -/
theorem test_eChange_P1_4 :
    (nextOf (step { running .encode 6 ibufP1 with rp := 3, cur := some 0x41, cnt := 3 })).map
      (fun t => (t.rp, t.cur, t.cnt, t.wp, t.out)) = some (4, some 0x42, 1, 2, some [0x41, 3]) := by decide

/-- R104, corner case: `CNT = 254` still extends. -/
theorem test_eExtend_254 :
    (nextOf (step { running .encode 6 ibufP1 with rp := 1, cur := some 0x41, cnt := 254 })).map
      (fun t => (t.rp, t.cnt, t.wp)) = some (2, 255, 0) := by decide

/-- R106, example: `CNT = 255` splits, never wraps. -/
theorem test_eSplit_255 :
    (nextOf (step { running .encode 6 ibufP1 with rp := 1, cur := some 0x41, cnt := 255 })).map
      (fun t => (t.rp, t.cur, t.cnt, t.wp, t.out)) = some (2, some 0x41, 1, 2, some [0x41, 255]) := by decide

/-- R107, example. -/
theorem test_eFinal_R107 :
    (nextOf (step { running .encode 6 ibufP1 with rp := 6, cur := some 0x43, cnt := 2, wp := 0 })).map
      (fun t => (t.st, t.cnt, t.wp, t.out)) = some (.done, 0, 2, some [0x43, 2]) := by decide

/-- P2, step 2: `D_EMIT`. -/
theorem test_dEmit_P2_2 :
    (nextOf (step { running .decode 6 ibufP2 with rp := 2, val := some 0x41, rem := 3 })).map
      (fun t => (t.rp, t.rem, t.wp, t.out)) = some (2, 2, 1, some [0x41]) := by decide

/-- R135, example: `D_FINAL`. -/
theorem test_dFinal_R135 :
    (nextOf (step { running .decode 4 [] with rp := 4, wp := 4 })).map (fun t => (t.st, t.wp)) =
      some (.done, 4) := by decide

/-- KV8: `H_START` in `RUN` changes nothing of the core. -/
theorem test_start_in_run_KV8 :
    nextOf (step (withMove .start { running .encode 20 [] with rp := 17 })) =
      some { running .encode 20 [] with rp := 17 } := by decide

/-- KV11: `H_RESET` in `RUN`; the bytes stay in memory and are no result. -/
theorem test_reset_KV11 :
    (nextOf (step (withMove .reset { running .encode 20 [] with wp := 2, obuf := [(0, 0x41), (1, 3)] }))).map
      (fun t => (t.st, t.wp, t.obuf.read 0, t.obuf.read 1)) = some (.idle, 0, some 0x41, some 3) := by decide

/-- KV10: reading `ERRCODE` in `ERROR` returns 1. -/
theorem test_read_errcode_KV10 :
    (nextOf (step (withMove (.read .errcode)
      { State.reset with st := .error, errcode := .malformedInput }))).map (fun t => t.host.seen) =
      some [.item .errcode 1] := by decide

/-- The word view of a record placed and run first after reset: value 0x41 is the high byte (R58). -/
theorem test_withFetchWord_pair :
    (nextOf (step (State.reset.withFetchWord 16 0x4103))).map (fun t => (t.val, t.rem, t.rp)) =
      some (some 0x41, 3, 2) := by decide

theorem test_withFetchWord_encode :
    (nextOf (step (State.reset.withFetchWord 8 0))).map (fun t => (t.st, t.mode)) =
      some (.run, some .encode) := by decide

/-! ### Witnesses: states that keep the invariants -/

/-- P6 after its first step: an `ENCODE` of `[09,09]` with one byte read. -/
def encMid : State := { running .encode 2 [(0, 9), (1, 9)] with rp := 1, cur := some 9, cnt := 1 }

/-- P2 before its first step, cut to one record. -/
def decMid : State := running .decode 2 [(0, 0x41), (1, 3)]

/-- The same after `D_READ`. -/
def decEmit : State := { decMid with rp := 2, val := some 0x41, rem := 3 }

/-- A finished operation with a result of two bytes. -/
def doneTwo : State := { ready .encode 2 [(0, 9), (1, 9)] with st := .done, rp := 2, wp := 2, obuf := [(0, 9), (1, 2)] }

/-- The same before the host has read `ST`. -/
def unseen : State := { doneTwo with host := { moves := [], seen := [], awaiting := true } }

/-- An operation that ended in an error. -/
def failed : State := { ready .decode 1 [(0, 5)] with st := .error, errcode := .malformedInput }

/-- R65 (b), R206: the result is the host's to read after its read of `ST` has shown `DONE`, and not before. -/
theorem test_readObuf_after_readSt :
    (nextOf (step (withMove (.readObuf 0) unseen))).isNone = true ∧
    ((nextOf (step (withMove (.read .st) unseen))).bind fun t => nextOf (step (withMove (.readObuf 0) t))).map
      (fun t => t.host.seen) = some [.item .st 2, .obuf 0 9] := by decide

theorem encMid_regs : RegsInv encMid where
  ibuf_wf := by decide
  obuf_wf := by decide
  errcode := by decide
  idle_wp := by decide
  error_wp := by decide
  written := by decide
  running _ := by
    refine ⟨2, [9, 9], rfl, rfl, .inl ⟨rfl, by decide, by decide, by decide, by decide, fun _ => ⟨by decide, 9, rfl, ?_⟩⟩⟩
    intro i _ hi
    have : i = 0 := by simp [encMid] at hi; omega
    subst this; rfl

theorem decMid_regs : RegsInv decMid where
  ibuf_wf := by decide
  obuf_wf := by decide
  errcode := by decide
  idle_wp := by decide
  error_wp := by decide
  written := by decide
  running _ := ⟨2, [0x41, 3], rfl, rfl, .inr ⟨rfl, by decide, by decide, by decide, fun h => absurd rfl h⟩⟩

theorem decEmit_regs : RegsInv decEmit where
  ibuf_wf := by decide
  obuf_wf := by decide
  errcode := by decide
  idle_wp := by decide
  error_wp := by decide
  written := by decide
  running _ := ⟨2, [0x41, 3], rfl, rfl, .inr ⟨rfl, by decide, by decide, by decide,
    fun _ => ⟨by decide, 0x41, 3, rfl, rfl, rfl, by decide⟩⟩⟩

theorem emptyRun_regs : RegsInv (running .encode 0 []) where
  ibuf_wf := by decide
  obuf_wf := by decide
  errcode := by decide
  idle_wp := by decide
  error_wp := by decide
  written := by decide
  running _ := ⟨0, [], rfl, rfl, .inl ⟨rfl, by decide, by decide, by decide, by decide, fun h => absurd rfl h⟩⟩

theorem doneTwo_regs : RegsInv doneTwo where
  ibuf_wf := by decide
  obuf_wf := by decide
  errcode := by decide
  idle_wp := by decide
  error_wp := by decide
  written := by decide
  running h := absurd h (by decide)

/-- The content invariant at a running state: `[9,1]` open means the one byte read. -/
theorem encMid_loop : LoopInv encMid := by
  intro _ n x out hn hx ho
  obtain rfl : 2 = n := by simpa [encMid, Tests.running, ready] using hn
  obtain rfl : [9, 9] = x := by
    have h : encMid.input 2 = some [9, 9] := rfl
    rw [h] at hx; exact Option.some.inj hx
  obtain rfl : [] = out := by
    have h : encMid.out = some [] := rfl
    rw [h] at ho; exact Option.some.inj ho
  refine ⟨fun _ => ⟨⟨by decide, by simp [State.openPair, encMid, records]⟩, by decide, by decide, ?_⟩,
    fun h => absurd h (by decide)⟩
  exact fun _ => rfl

theorem encMid_limits : LimitInv encMid :=
  ⟨fun _ _ => rfl, ⟨rfl, rfl⟩, fun _ _ _ _ _ _ _ => ⟨rfl, rfl⟩⟩

/-- A ready `ENCODE` of `[09,09]` (program P6), in the reference parameters. -/
def encReady : State := ready .encode 2 [(0, 9), (1, 9)]

/-- A ready `DECODE` of `[41,03]`. -/
def decReady : State := ready .decode 2 [(0, 0x41), (1, 3)]

theorem encReady_ready : Ready .encode encReady 2 [9, 9] (enc [9, 9]).length :=
  ⟨by decide, rfl, rfl, rfl, rfl, rfl, rfl, rfl⟩

theorem decReady_ready : Ready .decode decReady 2 [0x41, 3] (expand [0x41, 3]).length :=
  ⟨by decide, rfl, rfl, rfl, rfl, rfl, rfl, rfl⟩

/-- A platform with bounds: `LENW = 2`, `OCAP = 1`, `IBUF` at 0, `OBUF` at 16. -/
def tight : Config := { lenw := some 2, ocap := some 1, bases := some (0, 16) }

/-! ### Witnesses: the hypotheses of each statement, met together -/

theorem witness_DecodeAfterEncode : Instr.wellFormed (.pair 0x41 255) = true ∧ Instr.wellFormed (.pairZero 0) = true := by
  decide

theorem witness_DecodeAcceptsOnlyEncodings :
    Sys2Proof.decode .record [0x41, 3, 7] = .ok (.pair 0x41 3, [7]) ∧
    Sys2Proof.decode .command [1] = .ok (.decode, []) := ⟨rfl, rfl⟩

theorem witness_RecordStreamRoundTrip :
    (∀ i ∈ [Instr.pair 0x41 3, .pairZero 5], i.wellFormed = true ∧ i.format = .record) ∧
    decodeStream [0x41, 3, 5, 0] = .ok [.pair 0x41 3, .pairZero 5] ∧ decodeStream [5] = .error .truncatedRecord :=
  ⟨by decide, rfl, rfl⟩

theorem witness_StepRunsCommand : (withMove .start encReady).turn = (.act .start, encReady) ∧ encReady.st ≠ .run ∧
    encReady.mode = some .encode ∧ Sys2Proof.decode .command [Mode.encode.code] = .ok (.encode, []) :=
  ⟨rfl, by decide, rfl, rfl⟩

/-- The last record: `RP + 1` is the last index. -/
theorem witness_StepRunsRecord : decMid.turn = (.core, decMid) ∧ decMid.st = .run ∧ decMid.mode = some .decode ∧
    decMid.rem = 0 ∧ decMid.ilen = some 2 ∧ decMid.rp + 1 < 2 ∧ decMid.ibuf.read 0 = some 0x41 ∧
    decMid.ibuf.read 1 = some 3 ∧ Sys2Proof.decode .record [0x41, 3] = .ok (.pair 0x41 3, []) :=
  ⟨rfl, rfl, rfl, rfl, rfl, by decide, rfl, rfl, rfl⟩

/-- With input, and the corner `ILEN = 0`. -/
theorem witness_EncodeEntry : Ready .encode encReady 2 [9, 9] (enc [9, 9]).length ∧
    Ready .encode (ready .encode 0 []) 0 [] (enc []).length :=
  ⟨encReady_ready, ⟨by decide, rfl, rfl, rfl, rfl, rfl, rfl, rfl⟩⟩

/-- Even with input, the corner `ILEN = 0`, and the odd corner `ILEN = 1`. -/
theorem witness_DecodeEntry : Ready .decode decReady 2 [0x41, 3] (expand [0x41, 3]).length ∧
    Ready .decode (ready .decode 0 []) 0 [] (expand []).length ∧
    (1 % 2 = 1 ∧ (ready .decode 1 [(0, 5)]).st ≠ .run ∧ (ready .decode 1 [(0, 5)]).mode = some .decode ∧
      (ready .decode 1 [(0, 5)]).ilen = some 1 ∧ (ready .decode 1 [(0, 5)]).input 1 = some [5] ∧ fitsWidth (ready .decode 1 [(0, 5)]).cfg 1 = true ∧
      buffersOverlap (ready .decode 1 [(0, 5)]).cfg 1 = false) :=
  ⟨decReady_ready, ⟨by decide, rfl, rfl, rfl, rfl, rfl, rfl, rfl⟩, by decide⟩

theorem witness_OddDecodeNeedsWrittenInput : (ready .decode 1 []).st ≠ .run ∧ (ready .decode 1 []).mode = some .decode ∧
    (ready .decode 1 []).ilen = some 1 ∧ (ready .decode 1 []).input 1 = none ∧
    fitsWidth (ready .decode 1 []).cfg 1 = true ∧ buffersOverlap (ready .decode 1 []).cfg 1 = false := by decide

/-- One state per clause, at the boundaries: `ILEN = 2^LENW`; a result of `2^LENW`; a result one byte over `OCAP`;
buffers that share one byte; one byte unwritten. -/
theorem witness_LaunchRefusals :
    fitsWidth tight 4 = false ∧ fitsWidth tight 3 = true ∧
    buffersOverlap { tight with bases := some (0, 1) } 2 = true ∧
    buffersOverlap { tight with bases := some (0, 2) } 2 = false ∧
    (ready .encode 2 [(0, 9)]).input 2 = none ∧
    fitsWidth tight (resultLen .encode [1, 2]) = false ∧
    fitsWidth tight (resultLen .encode [9, 9]) = true ∧ fitsRoom tight (resultLen .encode [9, 9]) = false ∧
    fitsRoom tight (resultLen .decode [7, 1]) = true ∧
    (ready .encode 2 []).st ≠ .run ∧ (ready .encode 2 []).mode = some .encode := by decide

theorem witness_StartWithoutModeRefused :
    (withMove .start State.reset).turn = (.act .start, State.reset) ∧ State.reset.st ≠ .run ∧
    State.reset.mode = none := ⟨rfl, by decide, rfl⟩

theorem witness_CommandsStartOnlyWhenReady : encReady.st ≠ .run ∧ decReady.st ≠ .run ∧
    (nextOf (exec .encode encReady)).isSome = true ∧ (nextOf (exec .decode decReady)).map (·.st) = some .run := by decide

theorem witness_PairCompletes : decMid.st = .run ∧ decMid.mode = some .decode ∧ decMid.rem = 0 ∧
    decMid.ilen = some 2 ∧ decMid.rp + 1 < 2 := by decide

theorem witness_PairZeroSkipped : decMid.st = .run ∧ decMid.mode = some .decode ∧ decMid.rem = 0 ∧
    decMid.ilen = some 2 ∧ decMid.rp + 1 < 2 := by decide

theorem witness_InstructionFrames : (nextOf (exec .encode encReady)).isSome = true ∧
    (nextOf (exec .decode decReady)).isSome = true ∧ (nextOf (exec (.pair 0x41 3) decMid)).isSome = true ∧
    (nextOf (exec (.pairZero 0x41) decMid)).isSome = true := by decide

theorem witness_MeaningsRunOnlyWhereSelected : encReady.st ≠ .run ∧ encReady.mode ≠ some .decode ∧
    MicroStep.guard .dRead decEmit = false ∧
    MicroStep.guard .dRead { decMid with rp := 1 } = true ∧ ({ decMid with rp := 1 } : State).ilen = some (1 + 1) := by
  decide

/-- Both clauses. -/
theorem witness_EOpenStep : ({ encMid with rp := 0, cnt := 0 } : State).turn = (.core, { encMid with rp := 0, cnt := 0 }) ∧
    encMid.st = .run ∧ encMid.mode = some .encode ∧ encMid.ilen = some 2 ∧ encMid.ibuf.read 0 = some 9 ∧ RegsInv encMid :=
  ⟨rfl, rfl, rfl, rfl, rfl, encMid_regs⟩

/-- At the boundary `CNT = 254`; the second clause is about `CNT = 255`. -/
theorem witness_EExtendStep : ({ encMid with cnt := 254 } : State).turn = (.core, { encMid with cnt := 254 }) ∧
    encMid.st = .run ∧ encMid.mode = some .encode ∧ encMid.ilen = some 2 ∧ encMid.rp < 2 ∧ (254 : Byte) ≠ 0 ∧
    encMid.cur = some 9 ∧ encMid.ibuf.read encMid.rp = some 9 ∧ (254 : Byte).toNat < 255 :=
  ⟨rfl, rfl, rfl, rfl, by decide, by decide, rfl, rfl, by decide⟩

/-- At the boundary `CNT = 255` (EV26: not a split). -/
theorem witness_EChangeStep :
    ({ encMid with cnt := 255, cur := some 8 } : State).turn = (.core, { encMid with cnt := 255, cur := some 8 }) ∧
    encMid.st = .run ∧ encMid.mode = some .encode ∧ encMid.ilen = some 2 ∧ encMid.rp < 2 ∧ (255 : Byte) ≠ 0 ∧
    encMid.ibuf.read encMid.rp = some 9 ∧ (9 : Byte) ≠ 8 :=
  ⟨rfl, rfl, rfl, rfl, by decide, by decide, rfl, by decide⟩

theorem witness_ESplitStep : ({ encMid with cnt := 255 } : State).turn = (.core, { encMid with cnt := 255 }) ∧
    encMid.st = .run ∧ encMid.mode = some .encode ∧ encMid.ilen = some 2 ∧ encMid.rp < 2 ∧ encMid.cur = some 9 ∧
    encMid.ibuf.read encMid.rp = some 9 := ⟨rfl, rfl, rfl, rfl, by decide, rfl, rfl⟩

/-- The clauses: no pair open at `ILEN = 0`, and an open pair; the first of the two keeps the invariant as well. -/
theorem witness_EFinalStep : (running .encode 0 []).turn = (.core, running .encode 0 []) ∧
    (running .encode 0 []).ilen = some (running .encode 0 []).rp ∧ (running .encode 0 []).cnt = 0 ∧
    ({ encMid with rp := 2 } : State).turn = (.core, { encMid with rp := 2 }) ∧ encMid.st = .run ∧
    encMid.mode = some .encode ∧ ({ encMid with rp := 2 } : State).ilen = some 2 ∧ encMid.cnt ≠ 0 ∧ encMid.cur = some 9 ∧
    RegsInv (running .encode 0 []) ∧ MicroStep.guard .eFinal (running .encode 0 []) = true :=
  ⟨rfl, rfl, rfl, rfl, rfl, rfl, rfl, by decide, rfl, emptyRun_regs, rfl⟩

theorem witness_DReadStep : decMid.turn = (.core, decMid) ∧ RegsInv decMid ∧ decMid.st = .run ∧
    decMid.mode = some .decode ∧ decMid.rem = 0 ∧ decMid.ilen = some 2 ∧ decMid.rp < 2 :=
  ⟨rfl, decMid_regs, rfl, rfl, rfl, rfl, by decide⟩

theorem witness_DEmitStep : decEmit.turn = (.core, decEmit) ∧ decEmit.st = .run ∧ decEmit.mode = some .decode ∧
    decEmit.rem ≠ 0 ∧ decEmit.val = some 0x41 ∧ decEmit.host.moves = [] ∧ decEmit.out = some [] :=
  ⟨rfl, rfl, rfl, by decide, rfl, rfl, rfl⟩

theorem witness_DFinalStep : (running .decode 0 []).turn = (.core, running .decode 0 []) ∧
    (running .decode 0 []).st = .run ∧ (running .decode 0 []).mode = some .decode ∧ (running .decode 0 []).rem = 0 ∧
    (running .decode 0 []).ilen = some (running .decode 0 []).rp := ⟨rfl, rfl, rfl, rfl, rfl⟩

/-- The three clauses: an open pair with input left, one with none, and copies pending, the register unwritten. -/
theorem witness_UnwrittenRegistersRunOn :
    (({ encMid with cur := none } : State).turn = (.core, { encMid with cur := none }) ∧ encMid.st = .run ∧
      encMid.mode = some .encode ∧ encMid.ilen = some 2 ∧ encMid.rp < 2 ∧ encMid.cnt ≠ 0 ∧
      encMid.ibuf.read encMid.rp = some 9) ∧
    (({ encMid with rp := 2, cur := none } : State).turn = (.core, { encMid with rp := 2, cur := none }) ∧
      ({ encMid with rp := 2 } : State).ilen = some 2) ∧
    (({ decEmit with val := none } : State).turn = (.core, { decEmit with val := none }) ∧ decEmit.st = .run ∧
      decEmit.mode = some .decode ∧ decEmit.rem ≠ 0) :=
  ⟨⟨rfl, rfl, rfl, rfl, by decide, by decide, rfl⟩, ⟨rfl, rfl⟩, rfl, rfl, rfl, by decide⟩

/-- A state for each of the clauses that have hypotheses. -/
theorem witness_ExactlyOneStepEnabled : MicroStep.guard .eExtend encMid = true ∧
    (RegsInv encMid ∧ encMid.st = .run ∧ encMid.mode = some .encode) ∧
    (RegsInv decMid ∧ decMid.st = .run ∧ decMid.mode = some .decode) ∧
    (doneTwo.turn = (.core, doneTwo) ∧ doneTwo.st ≠ .run) :=
  ⟨by decide, ⟨encMid_regs, rfl, rfl⟩, ⟨decMid_regs, rfl, rfl⟩, rfl, by decide⟩

theorem witness_RunningCoreNeverStops : encMid.turn = (.core, encMid) ∧ RegsInv encMid ∧ encMid.st = .run :=
  ⟨rfl, encMid_regs, rfl⟩

theorem witness_InvariantStatesNeverFault : RegsInv encMid ∧ RegsInv decEmit ∧ RegsInv doneTwo :=
  ⟨encMid_regs, decEmit_regs, doneTwo_regs⟩

theorem witness_EncodeMeasureFalls : encMid.turn = (.core, encMid) ∧ RegsInv encMid ∧ encMid.st = .run ∧
    encMid.mode = some .encode ∧ encMid.ilen = some 2 := ⟨rfl, encMid_regs, rfl, rfl, rfl⟩

theorem witness_DecodeMeasureFalls : decEmit.turn = (.core, decEmit) ∧ RegsInv decEmit ∧ decEmit.st = .run ∧
    decEmit.mode = some .decode ∧ decEmit.ilen = some 2 := ⟨rfl, decEmit_regs, rfl, rfl, rfl⟩

theorem witness_ErrorOnlyFromOddDecode : ∃ t, step (withMove .start (ready .decode 1 [(0, 5)])) = .next t ∧
    (withMove .start (ready .decode 1 [(0, 5)])).errcode = .none ∧ t.errcode = .malformedInput :=
  ⟨_, rfl, rfl, rfl⟩

theorem witness_CoreWritesOnlyAtWp : decEmit.turn = (.core, decEmit) ∧ ∃ t, step decEmit = .next t ∧ t.wp = 1 :=
  ⟨rfl, _, rfl, rfl⟩

theorem witness_OnlyHostWritesIbuf : (withMove (.writeIbuf 0 7) encReady).turn = (.act (.writeIbuf 0 7), encReady) ∧
    ∃ t, step (withMove (.writeIbuf 0 7) encReady) = .next t ∧ t.ibuf.read 0 ≠ encReady.ibuf.read 0 :=
  ⟨rfl, _, rfl, by decide⟩

theorem witness_InputsFixedWhileRunning : ∃ t, step (withMove (.writeMode .decode) encMid) = .next t ∧
    (withMove (.writeMode .decode) encMid).st = .run ∧
    ∀ s0, (withMove (.writeMode .decode) encMid).turn ≠ (.act .reset, s0) :=
  ⟨_, rfl, rfl, fun s0 h => by simp [withMove, State.turn] at h⟩

/-- In `DONE`, and in `ERROR`. -/
theorem witness_OutcomeKeptUntilNextStart : ∀ u ∈ [doneTwo, failed],
    (∃ t, step (withMove (.writeMode .decode) u) = .next t) ∧ (u.st = .done ∨ u.st = .error) ∧
    (∀ s0, (withMove (.writeMode .decode) u).turn ≠ (.act .reset, s0)) ∧
    (∀ s0, (withMove (.writeMode .decode) u).turn ≠ (.act .start, s0)) := by
  intro u hu
  refine ⟨?_, ?_, fun s0 h => ?_, fun s0 h => ?_⟩
  · rcases List.mem_pair.mp hu with rfl | rfl <;> exact ⟨_, rfl⟩
  · rcases List.mem_pair.mp hu with rfl | rfl <;> decide
  · simp [withMove, State.turn] at h
  · simp [withMove, State.turn] at h

/-- A running state, with a step. -/
theorem witness_StepKeepsRegs : RegsInv encMid ∧ ∃ t, step encMid = .next t := ⟨encMid_regs, _, rfl⟩

theorem witness_StepKeepsLoop : RegsInv encMid ∧ LoopInv encMid ∧ ∃ t, step encMid = .next t :=
  ⟨encMid_regs, encMid_loop, _, rfl⟩

theorem witness_StepKeepsLimits : RegsInv encMid ∧ LoopInv encMid ∧ LimitInv encMid ∧ ∃ t, step encMid = .next t :=
  ⟨encMid_regs, encMid_loop, encMid_limits, _, rfl⟩

/-- The last two clauses: a canonical buffer. -/
theorem witness_CanonicalIffEncoded : CanonicalEncoded [0x41, 255, 0x41, 1] := test_canonical_T5.1

theorem witness_EncRunByRun : (44 : Nat) < 255 ∧ ([0x42] : List Byte).head? ≠ some 0x41 ∧
    ([] : List Byte).head? ≠ some 0x41 := by decide

theorem witness_DecSize : dec [0x41, 2, 0x41, 0] = some [0x41, 0x41] := by decide

theorem witness_EncAfterDecOnlyCanonical : dec [0x41, 2, 0x42, 3] = some [0x41, 0x41, 0x42, 0x42, 0x42] ∧
    CanonicalEncoded [0x41, 2, 0x42, 3] := by
  refine ⟨by decide, ?_⟩
  simp [CanonicalEncoded, ValidEncoded, records, chained]

theorem witness_EncodeRefinesEnc : (withMove .start encReady).turn = (.act .start, encReady) ∧
    encReady.host.moves = [] ∧ Ready .encode encReady 2 [9, 9] (enc [9, 9]).length := ⟨rfl, rfl, encReady_ready⟩

/-- Both clauses. -/
theorem witness_DecodeRefinesDec : (withMove .start decReady).turn = (.act .start, decReady) ∧
    decReady.host.moves = [] ∧ Ready .decode decReady 2 [0x41, 3] (expand [0x41, 3]).length ∧
    (withMove .start (ready .decode 1 [(0, 5)])).turn = (.act .start, ready .decode 1 [(0, 5)]) ∧
    (ready .decode 1 [(0, 5)]).host.moves = [] ∧ (ready .decode 1 [(0, 5)]).st ≠ .run ∧
    (ready .decode 1 [(0, 5)]).input 1 = some [5] := ⟨rfl, rfl, decReady_ready, rfl, rfl, by decide, rfl⟩

/-- The first operation, and a second one that holds its result. -/
theorem witness_RoundTripOnMachine : (withMove .start encReady).turn = (.act .start, encReady) ∧
    encReady.host.moves = [] ∧ Ready .encode encReady 2 [9, 9] (enc [9, 9]).length ∧
    (withMove .start (ready .decode 2 [(0, 9), (1, 2)])).turn = (.act .start, ready .decode 2 [(0, 9), (1, 2)]) ∧
    Ready .decode (ready .decode 2 [(0, 9), (1, 2)]) (enc [9, 9]).length (enc [9, 9]) [9, 9].length :=
  ⟨rfl, rfl, encReady_ready, rfl, ⟨by decide, rfl, rfl, rfl, rfl, rfl, rfl, rfl⟩⟩

theorem witness_EmptyGivesEmpty : Ready .encode (ready .encode 0 []) 0 [] 0 ∧ Ready .decode (ready .decode 0 []) 0 [] 0 ∧
    (withMove .start (ready .encode 0 [])).turn = (.act .start, ready .encode 0 []) ∧
    (withMove .start (ready .decode 0 [])).turn = (.act .start, ready .decode 0 []) :=
  ⟨⟨by decide, rfl, rfl, rfl, rfl, rfl, rfl, rfl⟩, ⟨by decide, rfl, rfl, rfl, rfl, rfl, rfl, rfl⟩, rfl, rfl⟩

/-- P6: an ignored start, a core turn, ignored writes, a read. -/
def p6Moves : List Turn :=
  [.act .start, .core, .act (.writeIlen 1), .act (.writeMode .decode), .act (.read .st)]

theorem witness_OperationEndsDespiteHost :
    Ready .encode { encReady with host := { moves := p6Moves, seen := [], awaiting := true } } 2 [9, 9] (resultLen .encode [9, 9]) ∧
    (∀ t ∈ p6Moves, t.harmless encReady.cfg = true) ∧
    Ready .decode decReady 2 [0x41, 3] (resultLen .decode [0x41, 3]) ∧ (2 % 2 = 0) :=
  ⟨⟨by decide, rfl, rfl, rfl, rfl, rfl, rfl, rfl⟩, by decide, decReady_ready, rfl⟩

/-- Two machines that differ in everything an earlier operation left and above `ILEN`. -/
theorem witness_ResultDependsOnInputOnly :
    (withMove .start encReady).turn = (.act .start, encReady) ∧
    (withMove .start { doneTwo with ibuf := [(0, 9), (1, 9), (2, 7)], cnt := 5 }).turn =
      (.act .start, { doneTwo with ibuf := [(0, 9), (1, 9), (2, 7)], cnt := 5 }) ∧
    encReady.st ≠ .run ∧ doneTwo.st ≠ .run ∧ encReady.mode = doneTwo.mode ∧ encReady.ilen = some 2 ∧
    doneTwo.ilen = some 2 ∧ encReady.cfg = doneTwo.cfg ∧
    ∀ i, i < 2 → encReady.ibuf.read i = Memory.read [(0, 9), (1, 9), (2, 7)] i :=
  ⟨rfl, rfl, by decide, by decide, rfl, rfl, rfl, rfl, by decide⟩

theorem witness_HResetEffect : (withMove .reset encMid).turn = (.act .reset, encMid) := rfl

/-- The three clauses; 4 is the first value beyond `LENW = 2`. -/
theorem witness_HostWritesOutsideRun :
    (withMove (.writeMode .decode) doneTwo).turn = (.act (.writeMode .decode), doneTwo) ∧ doneTwo.st ≠ .run ∧
    (withMove (.writeIlen 3) { doneTwo with cfg := tight }).turn = (.act (.writeIlen 3), { doneTwo with cfg := tight }) ∧
    fitsWidth tight 3 = true ∧ fitsWidth tight 4 = false := ⟨rfl, by decide, rfl, by decide, by decide⟩

theorem witness_HostIgnoredInRun : (withMove .start encMid).turn = (.act .start, encMid) ∧ encMid.st = .run ∧
    fitsWidth encMid.cfg 7 = true := ⟨rfl, rfl, rfl⟩

/-- Values written, and none. -/
theorem witness_HostReads : (withMove (.read .mode) encMid).turn = (.act (.read .mode), encMid) ∧
    encMid.mode = some .encode ∧ encMid.ilen = some 2 ∧ State.reset.mode = none ∧ State.reset.ilen = none :=
  ⟨rfl, rfl, rfl, rfl, rfl⟩

/-- The last result byte, index `OLEN - 1`; an index of `IBUF` within `LENW = 2` and the first beyond it; a byte of `IBUF`
written and one that is not. -/
theorem witness_HostBufferAccess :
    (withMove (.writeIbuf 0 7) encReady).turn = (.act (.writeIbuf 0 7), encReady) ∧ encReady.st ≠ .run ∧
    encReady.host.awaiting = false ∧ fitsWidth tight 3 = true ∧ fitsWidth tight 4 = false ∧
    (withMove (.readIbuf 1) encReady).turn = (.act (.readIbuf 1), encReady) ∧ encReady.ibuf.read 1 = some 9 ∧
    encReady.ibuf.read 2 = none ∧ (withMove (.readObuf 1) doneTwo).turn = (.act (.readObuf 1), doneTwo) ∧
    RegsInv doneTwo ∧ doneTwo.st = .done ∧ doneTwo.host.awaiting = false ∧ 1 < doneTwo.wp :=
  ⟨rfl, by decide, rfl, by decide, by decide, rfl, rfl, rfl, rfl, doneTwo_regs, rfl, rfl, by decide⟩

/-- In `RUN`; in `DONE` before the host has read so; in `DONE` at index `OLEN`; in `ERROR`. -/
theorem witness_HostBufferRefusals : (withMove (.readObuf 0) encMid).turn = (.act (.readObuf 0), encMid) ∧
    encMid.st = .run ∧ (withMove (.readObuf 0) unseen).turn = (.act (.readObuf 0), unseen) ∧
    unseen.host.awaiting = true ∧ (withMove (.readObuf 2) doneTwo).turn = (.act (.readObuf 2), doneTwo) ∧
    doneTwo.st ≠ .run ∧ doneTwo.host.awaiting = false ∧ doneTwo.wp ≤ 2 ∧
    (withMove (.readObuf 0) failed).turn = (.act (.readObuf 0), failed) ∧ failed.st ≠ .run ∧ failed.st ≠ .done :=
  ⟨rfl, rfl, rfl, rfl, rfl, by decide, rfl, by decide, rfl, by decide, by decide⟩

/-- A start that takes effect; a read of `ST` that ends the waiting; a step in `RUN` with the end awaited; a buffer access
that takes effect. -/
theorem witness_EndReadBeforeBuffers :
    (encReady.st ≠ .run ∧ ∃ t, step (withMove .start encReady) = .next t ∧ t.host.awaiting = true) ∧
    (∃ t, step (withMove (.read .st) unseen) = .next t ∧ (withMove (.read .st) unseen).host.awaiting = true ∧
      t.host.awaiting = false) ∧
    (∃ t, step { encMid with host := unseen.host } = .next t ∧ t.st = .run ∧ t.host.awaiting = true) ∧
    (∃ t, step (withMove (.readObuf 1) doneTwo) = .next t) :=
  ⟨⟨by decide, _, rfl, rfl⟩, ⟨_, rfl, rfl, rfl⟩, ⟨_, rfl, rfl, rfl⟩, ⟨_, rfl⟩⟩

end Sys2Proof.Tests
end

section
/-! PROOFS. The state right after reset (10_state.md R43). -/

namespace Sys2Proof.Machine

/-- Every guard begins with `ST = RUN` (40_encode.md R103 to R107, 41_decode.md R133 to R135). -/
theorem st_eq_run_of_guard {s : State} {m : MicroStep} (h : m.guard s = true) : s.st = .run := by
  cases m <;> simp only [MicroStep.guard, Bool.and_eq_true, running_iff] at h <;> tauto

/-- Outside `RUN` the core does nothing (42_control.md R166). -/
theorem enabled_eq_none_of_st_ne_run {s : State} (h : s.st ≠ .run) : s.enabled = none := by
  cases he : s.enabled with
  | none => rfl
  | some m => exact absurd (st_eq_run_of_guard (enabled_guard he)) h

/-- Settles O54: each register by the definition of `State.reset`; no step is enabled since `ST` is `IDLE` there. -/
theorem resetValues : Obligations.ResetValues := by
  have hidle : State.reset.st ≠ .run := by decide
  exact ⟨rfl, rfl, rfl, rfl, rfl, rfl, rfl, rfl, rfl, rfl, enabled_eq_none_of_st_ne_run hidle⟩

end Sys2Proof.Machine
end

section
/-! PROOFS. Canonical encoded buffers and the images of `enc` (30_encoding.md R84). -/

namespace Sys2Proof.Machine

/-- The range of a count byte (00_scope.md R16) leaves out 0 alone. -/
theorem count_range_iff {c : Byte} : (1 ≤ c.toNat ∧ c.toNat ≤ 255) ↔ c ≠ 0#8 := by bv_omega

/-- One record is canonical when its count is not 0. -/
theorem canonicalEncoded_pair {v c : Byte} : CanonicalEncoded [v, c] ↔ c ≠ 0#8 := by
  simp [CanonicalEncoded, ValidEncoded, chained, count_range_iff]

/-- The property of R84, record by record: the first count is not 0, and the value changes or that count is full. -/
theorem canonicalEncoded_cons {v c w d : Byte} {e : List Byte} :
    CanonicalEncoded (v :: c :: w :: d :: e) ↔
      c ≠ 0#8 ∧ (w ≠ v ∨ c = maxRun) ∧ CanonicalEncoded (w :: d :: e) := by
  have hlen : (v :: c :: w :: d :: e).length % 2 = (w :: d :: e).length % 2 := by
    simp only [List.length_cons]; omega
  have hsep : (v != w || c == maxRun) = true ↔ w ≠ v ∨ c = maxRun := by simp [eq_comm (a := v)]
  simp only [CanonicalEncoded, ValidEncoded, hlen, records_cons, List.forall_mem_cons, count_range_iff, chained,
    Bool.and_eq_true, hsep]
  tauto

/-- A count that has no room for one more is full (40_encode.md R105). -/
theorem eq_maxRun_of_not_lt {c : Byte} (h : ¬ c < maxRun) : c = maxRun := by
  unfold maxRun at *; bv_omega

/-- The output still to come begins with the value of the open pair. -/
theorem encGo_eq_cons (v c : Byte) (s : List Byte) : ∃ d e, encGo v c s = v :: d :: e := by
  fun_induction encGo v c s with
  | case1 v c => exact ⟨c, [], rfl⟩
  | case2 v c x s h ih => exact ih
  | case3 v c x s h ih => exact ⟨c, _, rfl⟩

/-- The output still to come is canonical, whatever open pair it begins from. -/
theorem encGo_canonical {v c : Byte} (hc : c ≠ 0#8) (s : List Byte) : CanonicalEncoded (encGo v c s) := by
  fun_induction encGo v c s with
  | case1 v c => exact canonicalEncoded_pair.2 hc
  | case2 v c x s h ih =>
    have hnext := toNat_add_one h.2
    exact ih (by bv_omega)
  | case3 v c x s h ih =>
    have hsep : x ≠ v ∨ c = maxRun := (not_and_or.1 h).imp_right eq_maxRun_of_not_lt
    obtain ⟨d, e, he⟩ := encGo_eq_cons x 1#8 s
    have htail := ih (by decide)
    rw [he] at htail ⊢
    exact canonicalEncoded_cons.2 ⟨hc, hsep, htail⟩

theorem enc_canonical (b : List Byte) : CanonicalEncoded (enc b) := by
  cases b with
  | nil => simp [CanonicalEncoded, ValidEncoded, chained]
  | cons x s => exact encGo_canonical (by decide) s

/-- Equal bytes that the open count has room for only raise it (40_encode.md R104). -/
theorem encGo_replicate {v c : Byte} {k : Nat} (h : c.toNat + k ≤ 255) (s : List Byte) :
    encGo v c (List.replicate k v ++ s) = encGo v (c + BitVec.ofNat 8 k) s := by
  induction k generalizing c with
  | zero => simp
  | succ k ih =>
    have hlt : c < maxRun := by unfold maxRun; bv_omega
    have hcount : (c + 1#8).toNat + k ≤ 255 := by bv_omega
    have hsum : c + 1#8 + BitVec.ofNat 8 k = c + BitVec.ofNat 8 (k + 1) := by bv_omega
    rw [List.replicate_succ, List.cons_append, encGo_extend hlt, ih hcount, hsum]

/-- A buffer that begins with what a record means is encoded with that record as the open pair. -/
theorem enc_rep_append {c : Byte} (hc : c ≠ 0#8) (v : Byte) (s : List Byte) :
    enc (rep v c ++ s) = encGo v c s := by
  have hroom : (1#8).toNat + (c - 1#8).toNat ≤ 255 := by bv_omega
  have hsum : 1#8 + BitVec.ofNat 8 (c - 1#8).toNat = c := by bv_omega
  rw [rep_cons hc, List.cons_append, enc_cons, rep, encGo_replicate hroom, hsum]

/-- Flush at a new record: what follows the open pair is encoded on its own (40_encode.md R105, R106). -/
theorem encGo_rep_append {v c w d : Byte} (hd : d ≠ 0#8) (h : w ≠ v ∨ c = maxRun) (s : List Byte) :
    encGo v c (rep w d ++ s) = v :: c :: enc (rep w d ++ s) := by
  rw [rep_cons hd, List.cons_append, encGo_flush h, enc_cons]

/-- The first count of a canonical buffer is not 0. -/
theorem CanonicalEncoded.count_ne_zero {v c : Byte} {e : List Byte} (h : CanonicalEncoded (v :: c :: e)) :
    c ≠ 0#8 := by
  obtain ⟨⟨-, hcounts⟩, -⟩ := h
  exact count_range_iff.1 (hcounts (v, c) (by simp))

/-- A canonical buffer is `enc` of the buffer it means, record by record. -/
theorem enc_expand_of_canonical : ∀ {e : List Byte}, CanonicalEncoded e → enc (expand e) = e
  | [], _ => rfl
  | [_], h => by simp [CanonicalEncoded, ValidEncoded] at h
  | [v, c], h => by
    rw [expand_cons, enc_rep_append h.count_ne_zero, expand_nil, encGo_nil]
  | [_, _, _], h => by simp [CanonicalEncoded, ValidEncoded] at h
  | v :: c :: w :: d :: e, h => by
    obtain ⟨hc, hsep, htail⟩ := canonicalEncoded_cons.1 h
    calc enc (expand (v :: c :: w :: d :: e))
        = encGo v c (rep w d ++ expand e) := by rw [expand_cons, enc_rep_append hc, expand_cons]
      _ = v :: c :: enc (expand (w :: d :: e)) := by rw [encGo_rep_append htail.count_ne_zero hsep, expand_cons]
      _ = v :: c :: w :: d :: e := by rw [enc_expand_of_canonical htail]

/-- Settles O41: `enc` answers canonical buffers, and gives a canonical buffer back from what it means. -/
theorem canonicalIffEncoded : Obligations.CanonicalIffEncoded := by
  refine ⟨enc_canonical, fun e => enc_expand_of_canonical, fun e => ⟨fun h => ?_, ?_⟩⟩
  · exact ⟨expand e, enc_expand_of_canonical h⟩
  · rintro ⟨b, rfl⟩
    exact enc_canonical b

end Sys2Proof.Machine
end

section
/-! PROOFS. The core's turn, completed: at most one guard holds, so each case of `CoreStep` is the one step enabled
there (42_control.md R166). Then runs of several steps. -/

namespace Sys2Proof.Machine

/-- A full count is an open one (10_state.md R38). -/
theorem pairOpen_of_full {s : State} (h : s.full = true) : s.pairOpen = true := by
  have hcnt : s.cnt = maxRun := by simpa [State.full] using h
  rw [State.pairOpen, hcnt]; decide

/-- Input left and input exhausted exclude each other. -/
theorem exhausted_eq_false_of_more {s : State} (h : s.more = true) : s.exhausted = false := by
  obtain ⟨n, hn, hlt⟩ := more_iff.1 h
  simp [State.exhausted, hn, hlt.ne']

theorem running_decode_of_running_encode {s : State} (h : s.running .encode = true) : s.running .decode = false := by
  simp [State.running, (running_iff.1 h).2]

/-- At most one guard holds (42_control.md R166): any two guards differ in the mode or in one of the predicates of
10_state.md R38. -/
theorem guard_unique {s : State} {m k : MicroStep} (hm : m.guard s = true) (hk : k.guard s = true) : m = k := by
  have hmode := @running_decode_of_running_encode s
  have hmore := @exhausted_eq_false_of_more s
  have hfull := @pairOpen_of_full s
  cases m <;> cases k <;> simp_all [MicroStep.guard]

theorem enabled_of_guard {s : State} {m : MicroStep} (h : m.guard s = true) : s.enabled = some m := by
  have hmem : m ∈ MicroStep.all := by cases m <;> decide
  have hsome : s.enabled.isSome = true := List.find?_isSome.2 ⟨m, hmem, h⟩
  obtain ⟨k, hk⟩ := Option.isSome_iff_exists.1 hsome
  rw [hk, guard_unique h (enabled_guard hk)]

/-! The guard of each micro-step as its rule words it (40_encode.md R103 to R107, 41_decode.md R133 to R135). -/

theorem guard_eOpen_iff {s : State} : MicroStep.guard .eOpen s = true ↔
    s.st = .run ∧ s.mode = some .encode ∧ (∃ n, s.ilen = some n ∧ s.rp < n) ∧ s.cnt = 0#8 := by
  simp [MicroStep.guard, running_iff, more_iff, State.pairOpen, and_assoc]

theorem guard_eExtend_iff {s : State} : MicroStep.guard .eExtend s = true ↔
    s.st = .run ∧ s.mode = some .encode ∧ (∃ n, s.ilen = some n ∧ s.rp < n) ∧ s.cnt ≠ 0#8 ∧
      s.ibuf.read s.rp = some s.curByte ∧ s.cnt ≠ maxRun := by
  simp [MicroStep.guard, running_iff, more_iff, same_iff, State.pairOpen, State.full, and_assoc]

theorem guard_eChange_iff {s : State} : MicroStep.guard .eChange s = true ↔
    s.st = .run ∧ s.mode = some .encode ∧ (∃ n, s.ilen = some n ∧ s.rp < n) ∧ s.cnt ≠ 0#8 ∧
      ∃ x, s.ibuf.read s.rp = some x ∧ x ≠ s.curByte := by
  simp [MicroStep.guard, running_iff, more_iff, same_iff, State.pairOpen, and_assoc]

theorem guard_eSplit_iff {s : State} : MicroStep.guard .eSplit s = true ↔
    s.st = .run ∧ s.mode = some .encode ∧ (∃ n, s.ilen = some n ∧ s.rp < n) ∧ s.cnt = maxRun ∧
      s.ibuf.read s.rp = some s.curByte := by
  simp [MicroStep.guard, running_iff, more_iff, same_iff, State.full, and_assoc]

theorem guard_eFinal_iff {s : State} : MicroStep.guard .eFinal s = true ↔
    s.st = .run ∧ s.mode = some .encode ∧ s.ilen = some s.rp := by
  simp [MicroStep.guard, running_iff, exhausted_iff, and_assoc]

theorem guard_dRead_iff {s : State} : MicroStep.guard .dRead s = true ↔
    s.st = .run ∧ s.mode = some .decode ∧ s.rem = 0#8 ∧ ∃ n, s.ilen = some n ∧ s.rp < n := by
  simp [MicroStep.guard, running_iff, more_iff, State.pending, and_assoc]

theorem guard_dEmit_iff {s : State} : MicroStep.guard .dEmit s = true ↔
    s.st = .run ∧ s.mode = some .decode ∧ s.rem ≠ 0#8 := by
  simp [MicroStep.guard, running_iff, State.pending, and_assoc]

theorem guard_dFinal_iff {s : State} : MicroStep.guard .dFinal s = true ↔
    s.st = .run ∧ s.mode = some .decode ∧ s.rem = 0#8 ∧ s.ilen = some s.rp := by
  simp [MicroStep.guard, running_iff, exhausted_iff, State.pending, and_assoc]

/-- What each micro-step does once its guard selects it; `D_READ` is the record under `RP`, run. -/
def MicroStep.effect (s : State) : MicroStep → Host.Outcome State Fault Refusal
  | .eOpen => Machine.eOpen s
  | .eExtend => Machine.eExtend s
  | .eChange => Machine.eChange s
  | .eSplit => Machine.eSplit s
  | .eFinal => Machine.eFinal s
  | .dRead => runFetched (fetchRecord (s.ilen.getD 0) s)
  | .dEmit => Machine.dEmit s
  | .dFinal => Machine.dFinal s

/-- The core's turn is the step whose guard holds (42_control.md R166). -/
theorem step_of_guard {s s0 : State} {m : MicroStep} (ht : s.turn = (.core, s0)) (hg : m.guard s0 = true) :
    step s = m.effect s0 := by
  have hst := st_eq_run_of_guard hg
  have hen := enabled_of_guard hg
  rw [step_core ht]
  cases m with
  | dRead =>
    obtain ⟨-, -, -, n, hn, -⟩ := guard_dRead_iff.1 hg
    simp [fetchCore, hst, hen, hn, MicroStep.effect]
  | _ => simp [fetchCore, hst, hen, MicroStep.effect]

/-- A record that stands whole below `ILEN` is fetched and read (41_decode.md R133, R139). -/
theorem runFetched_fetchRecord {s : State} {n : Nat} {v c : Byte} (hst : s.st = .run) (hmode : s.mode = some .decode)
    (hn : s.ilen = some n) (hlt : s.rp + 1 < n) (hrem : s.rem = 0#8) (hv : s.ibuf.read s.rp = some v)
    (hc : s.ibuf.read (s.rp + 1) = some c) :
    runFetched (fetchRecord n s) = .next { s with val := some v, rem := c, rp := s.rp + 2 } := by
  have hguard : MicroStep.guard .dRead s = true := guard_dRead_iff.2 ⟨hst, hmode, hrem, n, hn, by omega⟩
  have hread : ∀ d, readRecord v d s = .next { s with val := some v, rem := d, rp := s.rp + 2 } := by
    simp [readRecord, *]
  by_cases h0 : c = 0#8
  · subst h0
    simp [fetchRecord, State.recordBytes, *, Sys2Proof.decode, recordOf, exec, execPairZero]
  · simp [fetchRecord, State.recordBytes, *, Sys2Proof.decode, recordOf, exec, execPair]

/-- Each case of `CoreStep` is what the core's turn then does: the converse of `core_next`. -/
theorem step_of_coreStep {s s0 t : State} (ht : s.turn = (.core, s0)) (h : CoreStep s0 t) : step s = .next t := by
  cases h with
  | idle hst => simp [step_core ht, fetchCore, hst]
  | eOpen hst hmode hn hlt hcnt hx =>
    have hg := guard_eOpen_iff.2 ⟨hst, hmode, ⟨_, hn, hlt⟩, hcnt⟩
    simp [step_of_guard ht hg, MicroStep.effect, Machine.eOpen, State.peek, hx]
  | eExtend hst hmode hn hlt hcnt hx hfull =>
    exact step_of_guard ht (guard_eExtend_iff.2 ⟨hst, hmode, ⟨_, hn, hlt⟩, hcnt, hx, hfull⟩)
  | @eFlush n x hst hmode hn hlt hcnt hx hdiff =>
    have hflush : flushAndRestart s0 =
        .next { emitPair s0.curByte s0.cnt s0 with cur := some x, cnt := 1#8, rp := s0.rp + 1 } := by
      rw [flushAndRestart, State.peek, hx]
    by_cases hsame : x = s0.curByte
    · have hfull := hdiff.resolve_left (not_not.2 hsame)
      have hg := guard_eSplit_iff.2 ⟨hst, hmode, ⟨n, hn, hlt⟩, hfull, hsame ▸ hx⟩
      exact (step_of_guard ht hg).trans hflush
    · have hg := guard_eChange_iff.2 ⟨hst, hmode, ⟨n, hn, hlt⟩, hcnt, x, hx, hsame⟩
      exact (step_of_guard ht hg).trans hflush
  | eFinalEmpty hst hmode hn heq hcnt =>
    have hg := guard_eFinal_iff.2 ⟨hst, hmode, heq ▸ hn⟩
    simp [step_of_guard ht hg, MicroStep.effect, Machine.eFinal, hcnt]
  | eFinalFlush hst hmode hn heq hcnt =>
    have hg := guard_eFinal_iff.2 ⟨hst, hmode, heq ▸ hn⟩
    simp [step_of_guard ht hg, MicroStep.effect, Machine.eFinal, hcnt, emitPair]
  | @dRead n v c hst hmode hn hlt hrem hv hc =>
    have hg := guard_dRead_iff.2 ⟨hst, hmode, hrem, n, hn, by omega⟩
    simpa [step_of_guard ht hg, MicroStep.effect, hn] using runFetched_fetchRecord hst hmode hn hlt hrem hv hc
  | dEmit hst hmode hrem => exact step_of_guard ht (guard_dEmit_iff.2 ⟨hst, hmode, hrem⟩)
  | dFinal hst hmode hn heq hrem => exact step_of_guard ht (guard_dFinal_iff.2 ⟨hst, hmode, hrem, heq ▸ hn⟩)

theorem runN_succ_of_next {s t : State} (h : step s = .next t) (k : Nat) : runN (k + 1) s = runN k t := by
  simp [runN, h]

theorem runN_add_of_next {s t : State} {j : Nat} (h : runN j s = .next t) (k : Nat) :
    runN (j + k) s = runN k t := by
  induction j generalizing s with
  | zero => cases h; rw [Nat.zero_add]
  | succ j ih =>
    rw [Nat.add_right_comm]
    cases hs : step s with
    | next u =>
      rw [runN_succ_of_next hs] at h ⊢
      exact ih h
    | fault f => simp [runN, hs] at h
    | refused r => simp [runN, hs] at h

end Sys2Proof.Machine
end

section
/-! PROOFS. The entries and the five steps of `ENCODE`, one by one (40_encode.md R102 to R107). -/

namespace Sys2Proof.Machine

/-- Under the duties of a launch `ENCODE` runs its entry (40_encode.md R102). -/
theorem exec_encode_of_ready {s : State} {n : Nat} {b : List Byte} (h : Ready .encode s n b (enc b).length) :
    exec .encode s = .next (encodeEntry s) := by
  have hlaunch : launch (enc b).length (encodeEntry s) = .next (encodeEntry s) :=
    launch_next.2 ⟨rfl, h.lenFits, h.room⟩
  simp [exec, execEncode, h.idle, h.mode, withOperand_eq h.ilen h.width h.apart h.input, hlaunch]

/-- Under the duties of a launch a `DECODE` of even length runs its entry (41_decode.md R132). -/
theorem exec_decode_of_ready {s : State} {n : Nat} {e : List Byte} (heven : n % 2 = 0)
    (h : Ready .decode s n e (expand e).length) : exec .decode s = .next (decodeEntry s) := by
  have hlaunch : launch (expand e).length (decodeEntry s) = .next (decodeEntry s) :=
    launch_next.2 ⟨rfl, h.lenFits, h.room⟩
  simp [exec, execDecode, h.idle, h.mode, withOperand_eq h.ilen h.width h.apart h.input, oddLength, heven, hlaunch]

/-- Outside `RUN`, `H_START` runs the command that `MODE` holds (42_control.md R163). -/
theorem step_start {s s0 : State} {m : Mode} (ht : s.turn = (.act .start, s0)) (hidle : s0.st ≠ .run)
    (hmode : s0.mode = some m) : step s = exec m.command s0.awaitEnd := by
  cases m <;> simp [step_act ht, fetchHost, fetchCommand, hidle, hmode, Mode.code, Sys2Proof.decode, Mode.command]

/-- That the host awaits the end is no duty of a launch. -/
theorem Ready.awaitEnd {m : Mode} {s : State} {n len : Nat} {x : List Byte} (h : Ready m s n x len) :
    Ready m s.awaitEnd n x len :=
  ⟨h.idle, h.mode, h.ilen, h.input, h.width, h.apart, h.lenFits, h.room⟩

theorem step_start_encode {s s0 : State} {n : Nat} {b : List Byte} (ht : s.turn = (.act .start, s0))
    (h : Ready .encode s0 n b (enc b).length) : step s = .next (encodeEntry s0.awaitEnd) :=
  (step_start ht h.idle h.mode).trans (exec_encode_of_ready h.awaitEnd)

theorem step_start_decode {s s0 : State} {n : Nat} {e : List Byte} (ht : s.turn = (.act .start, s0))
    (heven : n % 2 = 0) (h : Ready .decode s0 n e (expand e).length) :
    step s = .next (decodeEntry s0.awaitEnd) :=
  (step_start ht h.idle h.mode).trans (exec_decode_of_ready heven h.awaitEnd)

/-- Settles O7: the entry by `exec_encode_of_ready`; with `ILEN = 0` it leaves `RP = ILEN`. -/
theorem encodeEntry_completes : Obligations.EncodeEntry := by
  intro s n b h
  refine ⟨exec_encode_of_ready h, fun hzero => enabled_of_guard (guard_eFinal_iff.2 ⟨rfl, h.mode, ?_⟩)⟩
  exact hzero ▸ h.ilen

/-- In a running `ENCODE` that keeps the register invariant R45 holds. -/
theorem RegsInv.encodeRegs {s : State} {n : Nat} (h : RegsInv s) (hst : s.st = .run) (hmode : s.mode = some .encode)
    (hn : s.ilen = some n) : EncodeRegs s n := by
  obtain ⟨k, x, hk, -, ⟨-, hregs⟩ | ⟨hdec, -⟩⟩ := h.running hst
  · obtain rfl : n = k := Option.some.inj (hn.symm.trans hk)
    exact hregs
  · simp [hmode] at hdec

/-- Settles O17: `CoreStep.eOpen`; under R45 no pair is open exactly at `RP = 0`. -/
theorem eOpenStep : Obligations.EOpenStep := by
  refine ⟨fun s s0 n x ht hst hmode hn hlt hcnt hx => step_of_coreStep ht (.eOpen hst hmode hn hlt hcnt hx), ?_⟩
  intro s n hinv hst hmode hn
  have hcnt := (hinv.encodeRegs hst hmode hn).cnt_zero
  simp only [guard_eOpen_iff, hst, hmode, hn, hcnt, Option.some.injEq, exists_eq_left', true_and]
  omega

theorem ne_maxRun_of_lt {c : Byte} (h : c < maxRun) : c ≠ maxRun := by
  rintro rfl
  exact absurd h (by decide)

/-- Settles O18: `CoreStep.eExtend`, where a count below 255 rises without wrapping. -/
theorem eExtendStep : Obligations.EExtendStep := by
  refine ⟨fun s s0 n v ht hst hmode hn hlt hcnt hv hx hroom => ?_, fun s hfull => ?_⟩
  · have hbelow : s0.cnt < maxRun := hroom
    rw [← curByte_of_cur hv] at hx
    exact ⟨_, toNat_add_one hbelow, step_of_coreStep ht (.eExtend hst hmode hn hlt hcnt hx (ne_maxRun_of_lt hbelow))⟩
  · simp [MicroStep.guard, State.full, maxRun, hfull]

/-- What the pair emitter puts into `OBUF`: value and count at two neighbouring indices, and nothing elsewhere. -/
theorem Memory.read_write_pair (m : Memory) (w : Nat) (v c : Byte) :
    ((m.write w v).write (w + 1) c).read w = some v ∧ ((m.write w v).write (w + 1) c).read (w + 1) = some c ∧
    ∀ a, a ≠ w → a ≠ w + 1 → ((m.write w v).write (w + 1) c).read a = m.read a := by
  refine ⟨?_, Memory.read_write_self .., fun a hw hw1 => ?_⟩
  · rw [Memory.read_write_of_ne _ _ (by omega), Memory.read_write_self]
  · rw [Memory.read_write_of_ne _ _ hw1, Memory.read_write_of_ne _ _ hw]

/-- The effect `E_CHANGE` and `E_SPLIT` share (40_encode.md R105, R106), with its frame in `OBUF`. -/
theorem step_flush {s s0 : State} {n : Nat} {v x : Byte} (ht : s.turn = (.core, s0)) (hst : s0.st = .run)
    (hmode : s0.mode = some .encode) (hn : s0.ilen = some n) (hlt : s0.rp < n) (hcnt : s0.cnt ≠ 0#8)
    (hv : s0.cur = some v) (hx : s0.ibuf.read s0.rp = some x) (hdiff : x ≠ v ∨ s0.cnt = maxRun) :
    ∃ o : Memory, step s =
        .next { s0 with obuf := o, wp := s0.wp + 2, cur := some x, cnt := 1#8, rp := s0.rp + 1 } ∧
      o.read s0.wp = some v ∧ o.read (s0.wp + 1) = some s0.cnt ∧
      ∀ a, a ≠ s0.wp → a ≠ s0.wp + 1 → o.read a = s0.obuf.read a := by
  obtain rfl := curByte_of_cur hv
  exact ⟨_, step_of_coreStep ht (.eFlush hst hmode hn hlt hcnt hx hdiff), Memory.read_write_pair ..⟩

/-- Settles O19: `step_flush` at a different byte. -/
theorem eChangeStep : Obligations.EChangeStep :=
  fun _ _ _ _ _ ht hst hmode hn hlt hcnt hv hx hne => step_flush ht hst hmode hn hlt hcnt hv hx (.inl hne)

/-- Settles O20: `step_flush` at the same byte with the count full. -/
theorem eSplitStep : Obligations.ESplitStep := by
  intro s s0 n v ht hst hmode hn hlt hfull hv hx
  have hcnt : s0.cnt ≠ 0#8 := by rw [hfull]; decide
  rw [← hfull]
  exact step_flush ht hst hmode hn hlt hcnt hv hx (.inr hfull)

/-- Settles O21: `CoreStep.eFinalEmpty` and `CoreStep.eFinalFlush`; under R45 a pair is open exactly when something was
read, and `WP` is at most twice that. -/
theorem eFinalStep : Obligations.EFinalStep := by
  refine ⟨fun s s0 ht hst hmode hn => ⟨fun hcnt => ?_, fun v hcnt hv => ?_⟩, fun s hinv hg => ?_⟩
  · exact step_of_coreStep ht (.eFinalEmpty hst hmode hn rfl hcnt)
  · obtain rfl := curByte_of_cur hv
    exact ⟨_, step_of_coreStep ht (.eFinalFlush hst hmode hn rfl hcnt), Memory.read_write_pair ..⟩
  · obtain ⟨hst, hmode, hn⟩ := guard_eFinal_iff.1 hg
    have hregs := hinv.encodeRegs hst hmode hn
    refine ⟨?_, ?_, fun hcnt => ?_⟩
    · cases herr : s.errcode with
      | none => rfl
      | malformedInput => simp [hinv.errcode.1 herr] at hst
    · simp [hn, hregs.cnt_zero, Nat.pos_iff_ne_zero]
    · have hrp := hregs.cnt_zero.1 hcnt
      have hwp := hregs.wp_le
      omega

end Sys2Proof.Machine
end

section
/-! PROOFS. The `ENCODE` operation computes `enc` (40_encode.md R118), by a simulation: one core step reads one byte and
keeps "written so far, then still to come, is `enc` of the input" (R101, R114). -/

namespace Sys2Proof.Machine

/-- What every turn of an `ENCODE`, its start included, leaves unchanged of the core (40_encode.md R102, R110). -/
structure EncodeFrame (s t : State) : Prop where
  mode : t.mode = s.mode
  ilen : t.ilen = s.ilen
  ibuf : t.ibuf = s.ibuf
  val  : t.val = s.val
  rem  : t.rem = s.rem

theorem EncodeFrame.refl (s : State) : EncodeFrame s s := ⟨rfl, rfl, rfl, rfl, rfl⟩

theorem EncodeFrame.trans {s t u : State} (h : EncodeFrame s t) (g : EncodeFrame t u) : EncodeFrame s u :=
  ⟨g.mode.trans h.mode, g.ilen.trans h.ilen, g.ibuf.trans h.ibuf, g.val.trans h.val, g.rem.trans h.rem⟩

theorem CoreStep.encodeFrame {s t : State} (h : CoreStep s t) (hmode : s.mode = some .encode) : EncodeFrame s t := by
  cases h with
  | dRead _ hdec | dEmit _ hdec | dFinal _ hdec => simp [hmode] at hdec
  | _ => exact ⟨rfl, rfl, rfl, rfl, rfl⟩

/-- The start of an `ENCODE`, from the state that still has that turn on the list. -/
theorem encodeEntry_frame {s s0 : State} {a : Turn} (ht : s.turn = (a, s0)) :
    EncodeFrame s (encodeEntry s0.awaitEnd) := by
  obtain ⟨hmode, hilen, -, -, -, -, -, -, hval, hrem, hibuf, -⟩ := turn_fields ht
  exact ⟨hmode, hilen, hibuf, hval, hrem⟩

/-- The core does not touch the host's side. -/
theorem CoreStep.host_eq {s t : State} (h : CoreStep s t) : t.host = s.host := by
  cases h <;> rfl

/-- The output still to come when `r` is unread: `enc` of it, continued from the open pair if there is one
(40_encode.md R101). -/
def State.toCome (s : State) (r : List Byte) : List Byte := if s.cnt = 0#8 then enc r else encGo s.curByte s.cnt r

theorem toCome_of_cnt_eq {s : State} (h : s.cnt = 0#8) (r : List Byte) : s.toCome r = enc r := if_pos h

theorem toCome_of_cnt_ne {s : State} (h : s.cnt ≠ 0#8) (r : List Byte) : s.toCome r = encGo s.curByte s.cnt r :=
  if_neg h

/-- An `ENCODE` of `b` in progress: what is written and what is still to come make `enc b`. -/
structure Encoding (b : List Byte) (s : State) : Prop where
  st       : s.st = .run
  mode     : s.mode = some .encode
  ilen     : s.ilen = some b.length
  input    : s.input b.length = some b
  errcode  : s.errcode = .none
  rp_le    : s.rp ≤ b.length
  progress : ∃ out, s.out = some out ∧ out ++ s.toCome (b.drop s.rp) = enc b

/-- The entry begins an operation (40_encode.md R102). -/
theorem encodeEntry_encoding {s : State} {n len : Nat} {b : List Byte} (h : Ready .encode s n b len) :
    Encoding b (encodeEntry s) := by
  have hlen : b.length = n := Memory.bytes_length h.input
  subst hlen
  exact ⟨rfl, h.mode, h.ilen, h.input, rfl, Nat.zero_le _, [], rfl, toCome_of_cnt_eq (s := encodeEntry s) rfl b⟩

/-- The scanner's byte is the first unread one (40_encode.md R103 to R106). -/
theorem Encoding.scan {b : List Byte} {s : State} (h : Encoding b s) (hlt : s.rp < b.length) :
    ∃ x, s.ibuf.read s.rp = some x ∧ b.drop s.rp = x :: b.drop (s.rp + 1) :=
  ⟨b[s.rp], by rw [Memory.bytes_read h.input hlt, List.getElem?_eq_getElem hlt], List.drop_eq_getElem_cons hlt⟩

/-- While a byte is unread, a core step reads it and moves what it writes from what is still to come. -/
theorem Encoding.coreStep_reads {b : List Byte} {s : State} (h : Encoding b s) (hlt : s.rp < b.length) :
    ∃ t, CoreStep s t ∧ Encoding b t ∧ t.rp = s.rp + 1 := by
  obtain ⟨x, hx, hdrop⟩ := h.scan hlt
  obtain ⟨out, hout, hcome⟩ := h.progress
  rw [hdrop] at hcome
  by_cases hcnt : s.cnt = 0#8
  · rw [toCome_of_cnt_eq hcnt, enc_cons] at hcome
    exact ⟨_, .eOpen h.st h.mode h.ilen hlt hcnt hx,
      ⟨h.st, h.mode, h.ilen, h.input, h.errcode, hlt, out, hout, hcome⟩, rfl⟩
  rw [toCome_of_cnt_ne hcnt] at hcome
  by_cases hext : x = s.curByte ∧ s.cnt < maxRun
  · obtain ⟨rfl, hroom⟩ := hext
    have hrise := toNat_add_one hroom
    have hopen : s.cnt + 1#8 ≠ 0#8 := by bv_omega
    rw [encGo_extend hroom] at hcome
    refine ⟨_, .eExtend h.st h.mode h.ilen hlt hcnt hx (ne_maxRun_of_lt hroom),
      ⟨h.st, h.mode, h.ilen, h.input, h.errcode, hlt, out, hout, ?_⟩, rfl⟩
    rw [toCome_of_cnt_ne hopen]
    exact hcome
  · have hdiff : x ≠ s.curByte ∨ s.cnt = maxRun := (not_and_or.1 hext).imp_right eq_maxRun_of_not_lt
    rw [encGo_flush hdiff] at hcome
    refine ⟨_, .eFlush h.st h.mode h.ilen hlt hcnt hx hdiff,
      ⟨h.st, h.mode, h.ilen, h.input, h.errcode, hlt, out ++ [s.curByte, s.cnt],
        Memory.bytes_write_pair _ _ hout, ?_⟩, rfl⟩
    rw [List.append_assoc]
    exact hcome

/-- With every byte read, a core step writes the open pair, all that is still to come, and ends the operation. -/
theorem Encoding.coreStep_ends {b : List Byte} {s : State} (h : Encoding b s) (hrp : s.rp = b.length) :
    ∃ t, CoreStep s t ∧ t.st = .done ∧ t.errcode = .none ∧ t.out = some (enc b) := by
  obtain ⟨out, hout, hcome⟩ := h.progress
  rw [hrp, List.drop_length] at hcome
  by_cases hcnt : s.cnt = 0#8
  · rw [toCome_of_cnt_eq hcnt, enc_nil, List.append_nil] at hcome
    exact ⟨_, .eFinalEmpty h.st h.mode h.ilen hrp hcnt, rfl, h.errcode, hcome ▸ hout⟩
  · rw [toCome_of_cnt_ne hcnt, encGo_nil] at hcome
    exact ⟨_, .eFinalFlush h.st h.mode h.ilen hrp hcnt, rfl, h.errcode, hcome ▸ Memory.bytes_write_pair _ _ hout⟩

/-- With the host silent, `k` core steps read `k` bytes. -/
theorem Encoding.runN_reads {b : List Byte} {s : State} (h : Encoding b s) (hmoves : s.host.moves = []) {k : Nat}
    (hk : s.rp + k ≤ b.length) :
    ∃ t, runN k s = .next t ∧ Encoding b t ∧ t.rp = s.rp + k ∧ t.host.moves = [] ∧ EncodeFrame s t := by
  induction k generalizing s with
  | zero => exact ⟨s, rfl, h, rfl, hmoves, .refl s⟩
  | succ k ih =>
    obtain ⟨u, hstep, hu, hrp⟩ := h.coreStep_reads (by omega)
    obtain ⟨t, hrun, ht, hrpt, hsilent, hframe⟩ := ih hu (by rw [hstep.host_eq, hmoves]) (by omega)
    refine ⟨t, ?_, ht, by omega, hsilent, (hstep.encodeFrame h.mode).trans hframe⟩
    rw [runN_succ_of_next (step_of_coreStep (turn_nil hmoves) hstep), hrun]

/-- Settles O47: the entry begins the simulation, `n` core steps read the input, one more ends the operation. -/
theorem encodeRefinesEnc : Obligations.EncodeRefinesEnc := by
  intro s s0 n b ht hmoves h
  obtain rfl : b.length = n := Memory.bytes_length h.input
  have hstart := step_start_encode ht h
  have hentry : Encoding b (encodeEntry s0.awaitEnd) := encodeEntry_encoding h.awaitEnd
  refine ⟨fun k hk => ?_, ?_⟩
  · obtain ⟨u, hrun, hu, -⟩ := hentry.runN_reads hmoves (k := k) (by simpa using hk)
    exact ⟨u, (runN_succ_of_next hstart k).trans hrun, hu.st⟩
  · obtain ⟨u, hrun, hu, hrp, hsilent, hread⟩ := hentry.runN_reads hmoves (k := b.length) (by simp)
    obtain ⟨t, hstep, hst, herr, hout⟩ := hu.coreStep_ends (by simpa using hrp)
    have hframe := ((encodeEntry_frame ht).trans hread).trans (hstep.encodeFrame hu.mode)
    refine ⟨t, ?_, hst, herr, (Memory.bytes_length hout).symm, hout, hframe.ibuf, hframe.mode, hframe.ilen,
      hframe.val, hframe.rem⟩
    calc runN (b.length + 2) s
        = runN (b.length + 1) (encodeEntry s0.awaitEnd) := runN_succ_of_next hstart _
      _ = runN 1 u := runN_add_of_next hrun 1
      _ = .next t := runN_succ_of_next (step_of_coreStep (turn_nil hsilent) hstep) 0

/-- Settles O50: the entry of either operation leaves `RP = ILEN = 0` and nothing open or pending, so the core's first
step ends it. -/
theorem emptyGivesEmpty : Obligations.EmptyGivesEmpty := by
  refine ⟨rfl, rfl, fun m s s0 ht hmoves h => ?_⟩
  cases m with
  | encode =>
    have hturn : (encodeEntry s0.awaitEnd).turn = (.core, _) := turn_nil hmoves
    exact ⟨_, _, step_start_encode ht h, rfl, enabled_of_guard (guard_eFinal_iff.2 ⟨rfl, h.mode, h.ilen⟩),
      step_of_coreStep hturn (.eFinalEmpty rfl h.mode h.ilen rfl rfl), rfl, rfl, rfl, rfl⟩
  | decode =>
    have hturn : (decodeEntry s0.awaitEnd).turn = (.core, _) := turn_nil hmoves
    exact ⟨_, _, step_start_decode ht rfl h, rfl, enabled_of_guard (guard_dFinal_iff.2 ⟨rfl, h.mode, rfl, h.ilen⟩),
      step_of_coreStep hturn (.dFinal rfl h.mode h.ilen rfl rfl), rfl, rfl, rfl, rfl⟩

end Sys2Proof.Machine
end

section
/-! PROOFS. The entry and the three steps of `DECODE`, one by one (41_decode.md R132 to R135, R139). -/

namespace Sys2Proof.Machine

/-- A `DECODE` of odd length, every other duty kept, raises the error whatever its bytes are (41_decode.md R132;
60_exceptions.md R181). -/
theorem exec_decode_of_odd {s : State} {n : Nat} {e : List Byte} (hodd : n % 2 = 1) (hidle : s.st ≠ .run)
    (hmode : s.mode = some .decode) (hn : s.ilen = some n) (hinput : s.input n = some e)
    (hwidth : fitsWidth s.cfg n = true) (hapart : buffersOverlap s.cfg n = false) :
    exec .decode s = .next (raiseMalformedInput s) := by
  simp [exec, execDecode, hidle, hmode, withOperand_eq hn hwidth hapart hinput, oddLength, hodd]

/-- Settles O8: `exec_decode_of_ready`, which with `ILEN = 0` leaves `RP = ILEN`; and `exec_decode_of_odd`, which leaves
`RUN`. -/
theorem decodeEntry_completes : Obligations.DecodeEntry := by
  refine ⟨fun s n e heven h => ⟨exec_decode_of_ready heven h, fun hzero => ?_⟩, ?_⟩
  · exact enabled_of_guard (guard_dFinal_iff.2 ⟨rfl, h.mode, rfl, hzero ▸ h.ilen⟩)
  · intro s n e hodd hidle hmode hn hinput hwidth hapart
    have hstopped : (raiseMalformedInput s).st ≠ .run := by simp
    exact ⟨exec_decode_of_odd hodd hidle hmode hn hinput hwidth hapart, enabled_eq_none_of_st_ne_run hstopped⟩

/-- Where its guard holds and the record stands whole below `ILEN`, reading it completes (41_decode.md R133). -/
theorem readRecord_eq {s : State} {n : Nat} (v c : Byte) (hst : s.st = .run) (hmode : s.mode = some .decode)
    (hrem : s.rem = 0#8) (hn : s.ilen = some n) (hlt : s.rp + 1 < n) :
    readRecord v c s = .next { s with val := some v, rem := c, rp := s.rp + 2 } := by
  have hguard : MicroStep.guard .dRead s = true := guard_dRead_iff.2 ⟨hst, hmode, hrem, n, hn, by omega⟩
  simp [readRecord, hguard, hn, hlt]

/-- A record with count 0 contributes nothing to the result (41_decode.md R139). -/
theorem dec_cons_zero (v : Byte) (e : List Byte) : dec (v :: 0#8 :: e) = dec e := by
  have hparity : (v :: 0#8 :: e).length % 2 = e.length % 2 := Nat.add_mod_right e.length 2
  rw [dec, dec, hparity, expand_cons, rep_zero, List.nil_append]

/-- Settles O14: `readRecord_eq` at count 0, which leaves no copy pending, and `dec_cons_zero`. -/
theorem pairZeroSkipped : Obligations.PairZeroSkipped := by
  refine ⟨fun v s n hst hmode hrem hn hlt => ⟨readRecord_eq v 0#8 hst hmode hrem hn hlt, ?_⟩, dec_cons_zero⟩
  exact Bool.eq_false_iff.2 fun hg => (guard_dEmit_iff.1 hg).2.2 rfl

/-- Every byte of a written range has a value. -/
theorem Memory.exists_read_of_bytes {m : Memory} {n k : Nat} {l : List Byte} (h : m.bytes n = some l) (hk : k < n) :
    ∃ v, m.read k = some v := by
  obtain rfl := Memory.bytes_length h
  exact ⟨l[k], by rw [Memory.bytes_read h hk, List.getElem?_eq_getElem hk]⟩

/-- In a running `DECODE` that keeps the register invariant R45 holds, and the input is written. -/
theorem RegsInv.decodeRegs {s : State} {n : Nat} (h : RegsInv s) (hst : s.st = .run) (hmode : s.mode = some .decode)
    (hn : s.ilen = some n) : DecodeRegs s n ∧ ∃ e, s.input n = some e := by
  obtain ⟨k, e, hk, hinput, ⟨henc, -⟩ | ⟨-, hregs⟩⟩ := h.running hst
  · simp [hmode] at henc
  · obtain rfl : n = k := Option.some.inj (hn.symm.trans hk)
    exact ⟨hregs, e, hinput⟩

/-- Settles O22: `RP` and `ILEN` are even under R45, so a whole record is left; both its bytes are written, and
`CoreStep.dRead` takes them. -/
theorem dReadStep : Obligations.DReadStep := by
  intro s s0 n ht hinv hst hmode hrem hn hlt
  obtain ⟨hregs, e, hinput⟩ := hinv.decodeRegs hst hmode hn
  have hwhole : s0.rp + 1 < n := by
    have heven := hregs.n_even
    have hrp := hregs.rp_even
    omega
  obtain ⟨v, hv⟩ := Memory.exists_read_of_bytes hinput hlt
  obtain ⟨c, hc⟩ := Memory.exists_read_of_bytes hinput hwhole
  exact ⟨hwhole, v, c, hv, hc, step_of_coreStep ht (.dRead hst hmode hn hwhole hrem hv hc)⟩

theorem toEmit_of_rem_eq {s : State} (h : s.rem = 0#8) : s.toEmit = [] := by
  rw [State.toEmit, h, rep_zero]

theorem toEmit_of_rem_ne {s : State} (h : s.rem ≠ 0#8) : s.toEmit = s.valByte :: rep s.valByte (s.rem - 1#8) :=
  rep_cons h

/-- With the host silent, the pending copies are written one by one until none is left (41_decode.md R134). -/
theorem runN_emits {s : State} {o : List Byte} (hmoves : s.host.moves = []) (hst : s.st = .run)
    (hmode : s.mode = some .decode) (hout : s.out = some o) :
    ∃ t, runN s.rem.toNat s = .next t ∧ t.rem = 0#8 ∧ t.out = some (o ++ s.toEmit) ∧ t.rp = s.rp ∧ t.st = .run := by
  induction hk : s.rem.toNat generalizing s o with
  | zero =>
    have hrem : s.rem = 0#8 := BitVec.eq_of_toNat_eq hk
    exact ⟨s, rfl, hrem, by rw [toEmit_of_rem_eq hrem, List.append_nil, hout], rfl, hst⟩
  | succ k ih =>
    have hrem : s.rem ≠ 0#8 := fun h => by simp [h] at hk
    have hstep := step_of_coreStep (turn_nil hmoves) (.dEmit hst hmode hrem)
    have hfall := toNat_sub_one hrem
    obtain ⟨t, hrun, hend, houtt, hrp, hstt⟩ := ih (s := { emitByte s.valByte s with rem := s.rem - 1#8 })
      hmoves hst hmode (Memory.bytes_write_end s.valByte hout) (Nat.succ.inj (hfall.symm.trans hk))
    refine ⟨t, (runN_succ_of_next hstep k).trans hrun, hend, ?_, hrp, hstt⟩
    rw [toEmit_of_rem_ne hrem, List.append_cons]
    exact houtt

/-- Settles O23: `CoreStep.dEmit`, where a count that is not 0 falls without wrapping; and `runN_emits`. -/
theorem dEmitStep : Obligations.DEmitStep := by
  refine ⟨fun s s0 v ht hst hmode hrem hv => ?_, fun s v o hmoves hst hmode hv hout => ?_⟩
  · obtain rfl := valByte_of_val hv
    exact ⟨_, _, step_of_coreStep ht (.dEmit hst hmode hrem), (toNat_sub_one hrem).symm,
      Memory.read_write_self .., fun a ha => Memory.read_write_of_ne _ _ ha⟩
  · obtain rfl := valByte_of_val hv
    exact runN_emits hmoves hst hmode hout

/-- Settles O24: `CoreStep.dFinal`. -/
theorem dFinalStep : Obligations.DFinalStep :=
  fun _ _ ht hst hmode hrem hn => step_of_coreStep ht (.dFinal hst hmode hn rfl hrem)

end Sys2Proof.Machine
end

section
/-! PROOFS. The `DECODE` operation computes `dec` (41_decode.md R146), by a simulation: each core step but the last keeps
"written so far, then pending copies, then the expansion of what is unread, is the expansion of the input" (R144) and
takes one from the number of steps left (R145). -/

namespace Sys2Proof.Machine

/-- What every turn of a `DECODE`, its start included, leaves unchanged of the core (41_decode.md R132, R141). -/
structure DecodeFrame (s t : State) : Prop where
  mode : t.mode = s.mode
  ilen : t.ilen = s.ilen
  ibuf : t.ibuf = s.ibuf
  cur  : t.cur = s.cur
  cnt  : t.cnt = s.cnt

theorem DecodeFrame.refl (s : State) : DecodeFrame s s := ⟨rfl, rfl, rfl, rfl, rfl⟩

theorem DecodeFrame.trans {s t u : State} (h : DecodeFrame s t) (g : DecodeFrame t u) : DecodeFrame s u :=
  ⟨g.mode.trans h.mode, g.ilen.trans h.ilen, g.ibuf.trans h.ibuf, g.cur.trans h.cur, g.cnt.trans h.cnt⟩

theorem CoreStep.decodeFrame {s t : State} (h : CoreStep s t) (hmode : s.mode = some .decode) : DecodeFrame s t := by
  cases h with
  | eOpen _ henc | eExtend _ henc | eFlush _ henc | eFinalEmpty _ henc | eFinalFlush _ henc => simp [hmode] at henc
  | _ => exact ⟨rfl, rfl, rfl, rfl, rfl⟩

/-- The start of a `DECODE`, from the state that still has that turn on the list. -/
theorem decodeEntry_frame {s s0 : State} {a : Turn} (ht : s.turn = (a, s0)) :
    DecodeFrame s (decodeEntry s0.awaitEnd) := by
  obtain ⟨hmode, hilen, -, -, -, -, hcur, hcnt, -, -, hibuf, -⟩ := turn_fields ht
  exact ⟨hmode, hilen, hibuf, hcur, hcnt⟩

/-- A `DECODE` of `e` in progress: what is unread is whole records, and what is written, the pending copies and the
expansion of what is unread make the expansion of `e`. -/
structure Decoding (e : List Byte) (s : State) : Prop where
  st       : s.st = .run
  mode     : s.mode = some .decode
  ilen     : s.ilen = some e.length
  input    : s.input e.length = some e
  errcode  : s.errcode = .none
  rp_le    : s.rp ≤ e.length
  whole    : (e.drop s.rp).length % 2 = 0
  progress : ∃ out, s.out = some out ∧ out ++ s.toEmit ++ expand (e.drop s.rp) = expand e

/-- The core steps a `DECODE` of `e` still takes (41_decode.md R145): the pending copies, then those of an operation on
what is unread. -/
def stepsLeft (e : List Byte) (s : State) : Nat := s.rem.toNat + operationSteps .decode (e.drop s.rp)

/-- The entry of an even length begins an operation (41_decode.md R132). -/
theorem decodeEntry_decoding {s : State} {len : Nat} {e : List Byte} (heven : e.length % 2 = 0)
    (h : Ready .decode s e.length e len) : Decoding e (decodeEntry s) :=
  ⟨rfl, h.mode, h.ilen, h.input, rfl, Nat.zero_le _, heven, [], rfl, rfl⟩

theorem stepsLeft_decodeEntry (e : List Byte) (s : State) :
    stepsLeft e (decodeEntry s) = operationSteps .decode e := Nat.zero_add _

/-- Reading a record is one step of the operation, each of its copies another (70_reset_and_hazards.md R215). -/
theorem operationSteps_decode_cons (v c : Byte) (r : List Byte) :
    operationSteps .decode (v :: c :: r) = c.toNat + operationSteps .decode r + 1 := by
  simp only [operationSteps, expand_cons, List.length_append, rep_length, List.length_cons]
  omega

/-- The pair reader's bytes are the first two unread ones (41_decode.md R133). -/
theorem Decoding.scan {e r : List Byte} {s : State} {v c : Byte} (h : Decoding e s)
    (hdrop : e.drop s.rp = v :: c :: r) :
    s.rp + 1 < e.length ∧ s.ibuf.read s.rp = some v ∧ s.ibuf.read (s.rp + 1) = some c ∧ e.drop (s.rp + 2) = r := by
  have hlt : s.rp + 1 < e.length := by
    have hlen := congrArg List.length hdrop
    simp only [List.length_drop, List.length_cons] at hlen
    omega
  have hread : ∀ k, k < 2 → s.ibuf.read (s.rp + k) = (v :: c :: r)[k]? := fun k hk => by
    rw [Memory.bytes_read h.input (by omega), ← hdrop, List.getElem?_drop]
  exact ⟨hlt, hread 0 (by omega), hread 1 (by omega), by rw [← List.drop_drop, hdrop]; rfl⟩

/-- With a copy pending, a core step writes it (41_decode.md R134). -/
theorem Decoding.coreStep_emits {e : List Byte} {s : State} (h : Decoding e s) (hrem : s.rem ≠ 0#8) :
    ∃ t, CoreStep s t ∧ Decoding e t ∧ stepsLeft e s = stepsLeft e t + 1 := by
  obtain ⟨out, hout, hcome⟩ := h.progress
  rw [toEmit_of_rem_ne hrem, List.append_cons] at hcome
  refine ⟨_, .dEmit h.st h.mode hrem,
    ⟨h.st, h.mode, h.ilen, h.input, h.errcode, h.rp_le, h.whole, _, Memory.bytes_write_end _ hout, hcome⟩, ?_⟩
  rw [stepsLeft, stepsLeft, toNat_sub_one hrem, Nat.add_right_comm]

/-- With no copy pending and a record unread, a core step reads it and leaves its copies pending (41_decode.md R133). -/
theorem Decoding.coreStep_reads {e r : List Byte} {s : State} {v c : Byte} (h : Decoding e s) (hrem : s.rem = 0#8)
    (hdrop : e.drop s.rp = v :: c :: r) :
    ∃ t, CoreStep s t ∧ Decoding e t ∧ stepsLeft e s = stepsLeft e t + 1 := by
  obtain ⟨hlt, hv, hc, hrest⟩ := h.scan hdrop
  obtain ⟨out, hout, hcome⟩ := h.progress
  have hwhole := h.whole
  rw [toEmit_of_rem_eq hrem, hdrop, expand_cons, List.append_nil, ← List.append_assoc] at hcome
  refine ⟨_, .dRead h.st h.mode h.ilen hlt hrem hv hc,
    ⟨h.st, h.mode, h.ilen, h.input, h.errcode, hlt, ?_, out, hout, ?_⟩, ?_⟩
  · simp only [List.length_drop] at hwhole ⊢
    omega
  · rw [hrest]
    exact hcome
  · rw [stepsLeft, stepsLeft, hrem, hdrop, hrest, operationSteps_decode_cons]
    exact Nat.zero_add _

/-- While more than one step is left, a core step writes a pending copy or reads a record. -/
theorem Decoding.coreStep_continues {e : List Byte} {s : State} (h : Decoding e s) (hleft : 1 < stepsLeft e s) :
    ∃ t, CoreStep s t ∧ Decoding e t ∧ stepsLeft e s = stepsLeft e t + 1 := by
  by_cases hrem : s.rem = 0#8
  · obtain hdrop | ⟨v, c, r, hdrop, -⟩ := even_cases h.whole
    · simp [stepsLeft, hrem, hdrop, operationSteps] at hleft
    · exact h.coreStep_reads hrem hdrop
  · exact h.coreStep_emits hrem

/-- When one step is left, nothing is pending or unread, and the core step ends the operation (41_decode.md R135). -/
theorem Decoding.coreStep_ends {e : List Byte} {s : State} (h : Decoding e s) (hleft : stepsLeft e s = 1) :
    ∃ t, CoreStep s t ∧ t.st = .done ∧ t.errcode = .none ∧ t.out = some (expand e) := by
  have hwhole := h.whole
  simp only [stepsLeft, operationSteps] at hleft
  have hrem : s.rem = 0#8 := BitVec.eq_of_toNat_eq (by rw [BitVec.toNat_zero]; omega)
  have hdrop : e.drop s.rp = [] := List.length_eq_zero_iff.1 (by omega)
  have hrp : s.rp = e.length := Nat.le_antisymm h.rp_le (List.drop_eq_nil_iff.1 hdrop)
  obtain ⟨out, hout, hcome⟩ := h.progress
  rw [toEmit_of_rem_eq hrem, hdrop, expand_nil, List.append_nil, List.append_nil] at hcome
  exact ⟨_, .dFinal h.st h.mode h.ilen hrp hrem, rfl, h.errcode, hcome ▸ hout⟩

/-- With the host silent, `k` core steps, fewer than are left, keep the operation in progress. -/
theorem Decoding.runN_continues {e : List Byte} {s : State} (h : Decoding e s) (hmoves : s.host.moves = []) {k : Nat}
    (hk : k < stepsLeft e s) :
    ∃ t, runN k s = .next t ∧ Decoding e t ∧ stepsLeft e s = stepsLeft e t + k ∧ t.host.moves = [] ∧
      DecodeFrame s t := by
  induction k generalizing s with
  | zero => exact ⟨s, rfl, h, rfl, hmoves, .refl s⟩
  | succ k ih =>
    obtain ⟨u, hstep, hu, hfall⟩ := h.coreStep_continues (by omega)
    obtain ⟨t, hrun, ht, hleft, hsilent, hframe⟩ := ih hu (by rw [hstep.host_eq, hmoves]) (by omega)
    refine ⟨t, ?_, ht, by omega, hsilent, (hstep.decodeFrame h.mode).trans hframe⟩
    rw [runN_succ_of_next (step_of_coreStep (turn_nil hmoves) hstep), hrun]

/-- Outside `RUN`, with the host silent, nothing changes any more (60_exceptions.md R191). -/
theorem runN_of_st_ne_run {s : State} (hmoves : s.host.moves = []) (hst : s.st ≠ .run) (k : Nat) :
    runN k s = .next s := by
  induction k with
  | zero => rfl
  | succ k ih => rw [runN_succ_of_next (step_of_coreStep (turn_nil hmoves) (.idle hst)), ih]

theorem dec_of_even {e : List Byte} (h : e.length % 2 = 0) : dec e = some (expand e) := if_neg (by omega)

theorem dec_of_odd {e : List Byte} (h : e.length % 2 = 1) : dec e = none := if_pos h

/-- R146, even length: the entry begins the simulation, all steps but one go on with it, the last ends the operation. -/
theorem decode_even_refines {s s0 : State} {e : List Byte} (ht : s.turn = (.act .start, s0))
    (hmoves : s0.host.moves = []) (heven : e.length % 2 = 0)
    (h : Ready .decode s0 e.length e (expand e).length) :
    (∀ k, k < operationSteps .decode e → ∃ u, runN (k + 1) s = .next u ∧ u.st = .run) ∧
    ∃ t, runN (operationSteps .decode e + 1) s = .next t ∧ t.st = .done ∧ t.errcode = .none ∧
      t.out = some (expand e) ∧ DecodeFrame s t := by
  have hstart := step_start_decode ht heven h
  have hentry : Decoding e (decodeEntry s0.awaitEnd) := decodeEntry_decoding heven h.awaitEnd
  have hsteps := stepsLeft_decodeEntry e s0.awaitEnd
  refine ⟨fun k hk => ?_, ?_⟩
  · obtain ⟨u, hrun, hu, -⟩ := hentry.runN_continues hmoves (hsteps ▸ hk)
    exact ⟨u, (runN_succ_of_next hstart k).trans hrun, hu.st⟩
  · obtain ⟨u, hrun, hu, hleft, hsilent, hframe⟩ :=
      hentry.runN_continues hmoves (k := e.length / 2 + (expand e).length) (hsteps ▸ Nat.lt_succ_self _)
    obtain ⟨t, hstep, hst, herr, hout⟩ := hu.coreStep_ends (by rw [hsteps, operationSteps] at hleft; omega)
    refine ⟨t, ?_, hst, herr, hout, ((decodeEntry_frame ht).trans hframe).trans (hstep.decodeFrame hu.mode)⟩
    calc runN (operationSteps .decode e + 1) s
        = runN (e.length / 2 + (expand e).length + 1) (decodeEntry s0.awaitEnd) := runN_succ_of_next hstart _
      _ = runN 1 u := runN_add_of_next hrun 1
      _ = .next t := runN_succ_of_next (step_of_coreStep (turn_nil hsilent) hstep) 0

/-- Settles O48: `decode_even_refines` for an even length; for an odd one the error of the entry, after which no step is
enabled. -/
theorem decodeRefinesDec : Obligations.DecodeRefinesDec := by
  refine ⟨fun s s0 n e ht hmoves heven h => ?_, ?_⟩
  · obtain rfl : e.length = n := Memory.bytes_length h.input
    obtain ⟨hrunning, t, hrun, hst, herr, hout, hframe⟩ := decode_even_refines ht hmoves heven h
    have hwp : t.wp = (expand e).length := (Memory.bytes_length hout).symm
    refine ⟨hrunning, t, ?_, hst, herr, hout.trans (dec_of_even heven).symm, hwp, hframe.ibuf, hframe.mode,
      hframe.ilen, hframe.cur, hframe.cnt⟩
    rw [hwp]
    exact hrun
  · intro s s0 n e ht hmoves hodd hidle hmode hn hinput hwidth hapart
    obtain rfl : e.length = n := Memory.bytes_length hinput
    obtain ⟨-, -, -, -, -, -, -, -, -, -, -, hobuf, -⟩ := turn_fields ht
    have hstart : step s = .next (raiseMalformedInput s0.awaitEnd) :=
      (step_start ht hidle hmode).trans
        (exec_decode_of_odd (s := s0.awaitEnd) hodd hidle hmode hn hinput hwidth hapart)
    have hstays := runN_of_st_ne_run (s := raiseMalformedInput s0.awaitEnd) hmoves (by simp)
    refine ⟨dec_of_odd hodd, raiseMalformedInput s0.awaitEnd, rfl, rfl, rfl, hobuf, fun k => ?_⟩
    exact (runN_succ_of_next hstart k).trans (hstays k)

end Sys2Proof.Machine
end

section
/-! PROOFS. The sequencer: in `RUN` the register invariant enables one of the steps of `MODE` (42_control.md R166). -/

namespace Sys2Proof.Machine

/-- A running `ENCODE` ends at `RP = ILEN`; below it the byte under `RP` is there, and it opens a pair, extends the open
one, or ends it for being full or of another value (40_encode.md R103 to R107). -/
theorem RegsInv.exists_guard_encode {s : State} (h : RegsInv s) (hst : s.st = .run) (hmode : s.mode = some .encode) :
    ∃ m ∈ [MicroStep.eOpen, .eExtend, .eChange, .eSplit, .eFinal], m.guard s = true := by
  obtain ⟨n, b, hn, hinput, -⟩ := h.running hst
  rcases (h.encodeRegs hst hmode hn).rp_le.eq_or_lt with heq | hlt
  · exact ⟨.eFinal, by simp, guard_eFinal_iff.2 ⟨hst, hmode, heq ▸ hn⟩⟩
  obtain ⟨x, hx⟩ := Memory.exists_read_of_bytes hinput hlt
  by_cases hcnt : s.cnt = 0#8
  · exact ⟨.eOpen, by simp, guard_eOpen_iff.2 ⟨hst, hmode, ⟨n, hn, hlt⟩, hcnt⟩⟩
  by_cases hsame : x = s.curByte
  · subst hsame
    by_cases hfull : s.cnt = maxRun
    · exact ⟨.eSplit, by simp, guard_eSplit_iff.2 ⟨hst, hmode, ⟨n, hn, hlt⟩, hfull, hx⟩⟩
    · exact ⟨.eExtend, by simp, guard_eExtend_iff.2 ⟨hst, hmode, ⟨n, hn, hlt⟩, hcnt, hx, hfull⟩⟩
  · exact ⟨.eChange, by simp, guard_eChange_iff.2 ⟨hst, hmode, ⟨n, hn, hlt⟩, hcnt, x, hx, hsame⟩⟩

/-- A running `DECODE` writes a pending copy; with none pending it ends at `RP = ILEN` and reads a record below it
(41_decode.md R133 to R135). -/
theorem RegsInv.exists_guard_decode {s : State} (h : RegsInv s) (hst : s.st = .run) (hmode : s.mode = some .decode) :
    ∃ m ∈ [MicroStep.dRead, .dEmit, .dFinal], m.guard s = true := by
  obtain ⟨n, -, hn, -, -⟩ := h.running hst
  by_cases hrem : s.rem = 0#8
  · obtain ⟨hregs, -⟩ := h.decodeRegs hst hmode hn
    rcases hregs.rp_le.eq_or_lt with heq | hlt
    · exact ⟨.dFinal, by simp, guard_dFinal_iff.2 ⟨hst, hmode, hrem, heq ▸ hn⟩⟩
    · exact ⟨.dRead, by simp, guard_dRead_iff.2 ⟨hst, hmode, hrem, n, hn, hlt⟩⟩
  · exact ⟨.dEmit, by simp, guard_dEmit_iff.2 ⟨hst, hmode, hrem⟩⟩

/-- Settles O26: `guard_unique` in every state, the two lemmas above in `RUN`; outside `RUN` `st_eq_run_of_guard` excludes
every guard, and the core's turn is `CoreStep.idle`. -/
theorem exactlyOneStepEnabled : Obligations.ExactlyOneStepEnabled :=
  ⟨fun _ _ _ => guard_unique,
   fun _ => RegsInv.exists_guard_encode,
   fun _ => RegsInv.exists_guard_decode,
   fun _ hst _ => Bool.eq_false_iff.2 fun hguard => hst (st_eq_run_of_guard hguard),
   fun _ _ ht hst => step_of_coreStep ht (.idle hst)⟩

end Sys2Proof.Machine
end

section
/-! PROOFS. What the host's actions and the commands do while an operation runs: nothing (10_state.md R37, 42_control.md
R164). -/

namespace Sys2Proof.Machine

theorem fetchCommand_of_run {s : State} (hst : s.st = .run) : fetchCommand s = .other (.next s) := if_pos hst

theorem hWriteMode_of_run {s : State} (hst : s.st = .run) (m : Mode) : hWriteMode m s = .next s := if_pos hst

/-- A length beyond `LENW` is refused in `RUN` too (log 9). -/
theorem hWriteIlen_of_run {s : State} {n : Nat} (hst : s.st = .run) (hfits : fitsWidth s.cfg n = true) :
    hWriteIlen n s = .next s := by
  simp [hWriteIlen, hst, hfits]

theorem exec_command_of_run {s : State} (hst : s.st = .run) : ∀ m : Mode, exec m.command s = .next s
  | .encode => if_pos hst
  | .decode => if_pos hst

/-- Settles O56: each of the three actions, and each command, tests `ST = RUN` and then leaves the state as it is. -/
theorem hostIgnoredInRun : Obligations.HostIgnoredInRun := by
  refine ⟨fun s s0 a ht hst ha => ?_, fun m s hst => exec_command_of_run hst m⟩
  rw [step_act ht]
  rcases ha with rfl | ⟨m, rfl⟩ | ⟨n, rfl, hfits⟩
  · rw [fetchHost, fetchCommand_of_run hst, runFetched_other]
  · rw [fetchHost, hWriteMode_of_run hst, runFetched_other]
  · rw [fetchHost, hWriteIlen_of_run hst hfits, runFetched_other]

end Sys2Proof.Machine
end

section
/-! PROOFS. Who raises `MalformedInput` (60_exceptions.md R180): no step of the core, and of the host's actions `H_START`
alone. -/

namespace Sys2Proof.Machine

/-- No step of the core touches `ERRCODE` (40_encode.md R103 to R107, 41_decode.md R133 to R135). -/
theorem CoreStep.errcode_eq {s t : State} (h : CoreStep s t) : t.errcode = s.errcode := by
  cases h <;> rfl

/-- The host's one action that raises the error is the start of a `DECODE` of odd length. -/
theorem HostStep.eq_raise_of_errcode {s t : State} {a : HostMove} (h : HostStep s a t) (hbefore : s.errcode = .none)
    (hafter : t.errcode = .malformedInput) :
    a = .start ∧ s.mode = some .decode ∧ (∃ n, s.ilen = some n ∧ n % 2 = 1) ∧ t = raiseMalformedInput s.awaitEnd := by
  cases h with
  | malformed _ hmode hn _ _ _ hodd => exact ⟨rfl, hmode, ⟨_, hn, hodd⟩, rfl⟩
  | reset | encode | decode => simp at hafter
  | ignoredStart | ignoredMode | ignoredIlen | writeMode | writeIlen | read | readStatus | writeIbuf =>
    simp [hbefore] at hafter

/-- Settles O31: the core keeps `ERRCODE`, and `HostStep.eq_raise_of_errcode` gives the host's one way to raise it. -/
theorem errorOnlyFromOddDecode : Obligations.ErrorOnlyFromOddDecode := by
  refine ⟨rfl, fun s t hstep hbefore hafter => ?_⟩
  cases hturn : s.turn with
  | mk turn s0 =>
    obtain ⟨hmode, hilen, -, herr, -⟩ := turn_fields hturn
    rw [← herr] at hbefore
    cases turn with
    | core =>
      have hkept := (core_next hturn hstep).errcode_eq
      simp [hkept, hbefore] at hafter
    | act a =>
      obtain ⟨rfl, hdec, ⟨n, hn, hodd⟩, rfl⟩ := (host_next hturn hstep).eq_raise_of_errcode hbefore hafter
      exact ⟨n, s0, rfl, hmode ▸ hdec, hilen ▸ hn, hodd, rfl⟩

end Sys2Proof.Machine
end

section
/-! PROOFS. The host's `H_RESET`, in every state (70_reset_and_hazards.md R200, 10_state.md R43). -/

namespace Sys2Proof.Machine

/-- `H_RESET` has no guard: whatever `ST` is, its step completes with `hReset`. -/
theorem step_reset {s s0 : State} (ht : s.turn = (.act .reset, s0)) : step s = .next (hReset s0) := by
  rw [step_act ht, fetchHost, runFetched_other]

/-- Settles O53: each register by the definition of `hReset`; memories, parameters and earlier answers are those of `s0`,
which taking the turn left as in `s`; no step is enabled since `ST` is `IDLE`. -/
theorem hResetEffect : Obligations.HResetEffect := by
  intro s s0 ht
  obtain ⟨-, -, -, -, -, -, -, -, -, -, hibuf, hobuf, hcfg, hseen, -⟩ := turn_fields ht
  have hidle : (hReset s0).st ≠ .run := by simp
  exact ⟨hReset s0, step_reset ht, rfl, rfl, rfl, rfl, rfl, rfl, rfl, rfl, rfl, rfl, hibuf, hobuf, hcfg, rfl, hseen,
    enabled_eq_none_of_st_ne_run hidle⟩

end Sys2Proof.Machine
end

section
/-! PROOFS. The encoded things, each on its own and in a stream (30_encoding.md R75 to R88; 20_memory.md R57). -/

namespace Sys2Proof

@[simp] theorem encode_recordOf (v c : Byte) : encode (recordOf v c) = [v, c] := by
  by_cases hc : c = 0#8 <;> simp [recordOf, hc, encode]

@[simp] theorem recordOf_format (v c : Byte) : (recordOf v c).format = .record := by
  by_cases hc : c = 0#8 <;> simp [recordOf, hc, Instr.format]

@[simp] theorem recordOf_wellFormed (v c : Byte) : (recordOf v c).wellFormed = true := by
  by_cases hc : c = 0#8 <;> simp [recordOf, hc, Instr.wellFormed]

/-- The two record rows share no record, so a well-formed one is what its two bytes are read as (30_encoding.md R88). -/
theorem exists_eq_recordOf : ∀ {i : Instr}, i.wellFormed = true → i.format = .record → ∃ v c, i = recordOf v c
  | .encode, _, hformat => nomatch hformat
  | .decode, _, hformat => nomatch hformat
  | .pairZero v, _, _ => ⟨v, 0#8, rfl⟩
  | .pair v c, hwf, _ => by
    have hc : c ≠ 0#8 := by simpa [Instr.wellFormed] using hwf
    exact ⟨v, c, by rw [recordOf, if_neg hc]⟩

/-- Settles O1: each word by running the decoder. -/
theorem tableWordsDecode : Obligations.TableWordsDecode := by
  refine ⟨?_, ?_, ?_, ?_, ?_, ?_⟩ <;> decide

/-- Settles O2: a command by its one byte, a record by its two, `PAIR` having a count that is not 0. -/
theorem decodeAfterEncode : Obligations.DecodeAfterEncode := by
  intro i rest hwf
  cases i with
  | encode => rfl
  | decode => rfl
  | pairZero v => rfl
  | pair v c =>
    have hc : c ≠ 0#8 := by simpa [Instr.wellFormed] using hwf
    simp [Instr.format, encode, decode, recordOf, hc]

/-- The decoder answers a command for the bytes 0 and 1 alone (30_encoding.md R77). -/
theorem decode_command_eq_ok {b : Byte} {bytes rest : List Byte} {i : Instr}
    (h : decode .command (b :: bytes) = .ok (i, rest)) :
    (b = 0#8 ∧ i = .encode ∨ b = 1#8 ∧ i = .decode) ∧ rest = bytes := by
  simp only [decode] at h
  split at h
  · next hb => cases h; exact ⟨.inl ⟨hb, rfl⟩, rfl⟩
  · split at h
    · next hb => cases h; exact ⟨.inr ⟨hb, rfl⟩, rfl⟩
    · cases h

/-- Settles O3: a command is one of the two bytes above, a record `recordOf` of any two. -/
theorem decodeAcceptsOnlyEncodings : Obligations.DecodeAcceptsOnlyEncodings
  | .command, [], _, _, h => nomatch h
  | .command, _ :: _, _, _, h => by
    obtain ⟨⟨rfl, rfl⟩ | ⟨rfl, rfl⟩, rfl⟩ := decode_command_eq_ok h <;> exact ⟨rfl, rfl, rfl⟩
  | .record, [], _, _, h => nomatch h
  | .record, [_], _, _, h => nomatch h
  | .record, _ :: _ :: _, _, _, h => by cases h; simp

/-- A record of a stream is its two bytes, and the rest is read on its own (30_encoding.md R76). -/
theorem decodeStream_cons {v c : Byte} {e : List Byte} {is : List Instr} (h : decodeStream e = .ok is) :
    decodeStream (v :: c :: e) = .ok (recordOf v c :: is) := by
  simp [decodeStream, h]

/-- A list of well-formed records is read back from its encoding. -/
theorem decodeStream_encodeStream {is : List Instr} (h : ∀ i ∈ is, i.wellFormed = true ∧ i.format = .record) :
    decodeStream (encodeStream is) = .ok is := by
  induction is with
  | nil => rfl
  | cons i is ih =>
    obtain ⟨⟨hwf, hformat⟩, hrest⟩ := List.forall_mem_cons.1 h
    obtain ⟨v, c, rfl⟩ := exists_eq_recordOf hwf hformat
    rw [encodeStream, encode_recordOf]
    exact decodeStream_cons (ih hrest)

/-- What a stream is read as: its own encoding, two bytes for each well-formed record. -/
theorem of_decodeStream_eq_ok {e : List Byte} {is : List Instr} (h : decodeStream e = .ok is) :
    encodeStream is = e ∧ e.length = 2 * is.length ∧ ∀ i ∈ is, i.wellFormed = true ∧ i.format = .record := by
  fun_induction decodeStream e generalizing is with
  | case1 => cases h; simp [encodeStream]
  | case2 => cases h
  | case3 v c rest js hjs ih =>
    cases h
    obtain ⟨henc, hlen, hall⟩ := ih hjs
    refine ⟨by rw [encodeStream, encode_recordOf, henc]; rfl, ?_, ?_⟩
    · simp only [List.length_cons, hlen]; omega
    · simpa using hall
  | case4 => cases h

/-- A stream is rejected when, and only when, a byte is left dangling at its end (30_encoding.md R83). -/
theorem decodeStream_eq_truncated_iff (e : List Byte) :
    decodeStream e = .error .truncatedRecord ↔ e.length % 2 = 1 := by
  fun_induction decodeStream e with
  | case1 => simp
  | case2 => simp
  | case3 v c rest js hjs ih => simpa [hjs, Nat.add_assoc] using ih
  | case4 v c rest err herr ih => simpa [herr, Nat.add_assoc] using ih

/-- Settles O4: the three lemmas above, each by induction over the stream. -/
theorem recordStreamRoundTrip : Obligations.RecordStreamRoundTrip :=
  ⟨fun _ => decodeStream_encodeStream, fun _ _ => of_decodeStream_eq_ok, decodeStream_eq_truncated_iff⟩

end Sys2Proof
end

section
/-! PROOFS. The functions of the codec: sizes, runs, and the round trip (40_encode.md R112, R113; 41_decode.md R143, R147,
R149). -/

namespace Sys2Proof.Machine

/-- Settles O40: half of `enc_canonical`. -/
theorem encIsValid : Obligations.EncIsValid := by
  intro b
  obtain ⟨hvalid, -⟩ := enc_canonical b
  exact hvalid

/-- The output still to come means the open pair and then what is unread. -/
theorem expand_encGo (v c : Byte) (s : List Byte) : expand (encGo v c s) = rep v c ++ s := by
  fun_induction encGo v c s with
  | case1 v c => simp
  | case2 v c x s h ih =>
    obtain ⟨rfl, hroom⟩ := h
    rw [ih, rep_succ hroom, List.append_assoc, List.singleton_append]
  | case3 v c x s h ih => rw [expand_cons, ih, rep_one, List.singleton_append]

theorem expand_enc (b : List Byte) : expand (enc b) = b := by
  cases b with
  | nil => rfl
  | cons x s => rw [enc_cons, expand_encGo, rep_one, List.singleton_append]

/-- Settles O45: `expand_enc`, the output of `enc` having even length. -/
theorem decAfterEnc : Obligations.DecAfterEnc := by
  intro b
  obtain ⟨heven, -⟩ := encIsValid b
  rw [dec_of_even heven, expand_enc]

/-- `dec` answers for an even length alone. -/
theorem dec_eq_some {e d : List Byte} (h : dec e = some d) : e.length % 2 = 0 ∧ expand e = d := by
  unfold dec at h
  split at h
  · cases h
  · next hparity => exact ⟨by omega, Option.some.inj h⟩

/-- Settles O46: canonical buffers are the images of `enc`; one run of two bytes, as one record or as two. -/
theorem encAfterDecOnlyCanonical : Obligations.EncAfterDecOnlyCanonical := by
  refine ⟨fun e d h => ?_, [7, 2], [7, 1, 7, 1], by simp [ValidEncoded], by simp [ValidEncoded], by decide, by decide⟩
  obtain ⟨-, rfl⟩ := dec_eq_some h
  refine ⟨fun heq => ?_, enc_expand_of_canonical⟩
  rw [← heq]
  exact enc_canonical (expand e)

/-- A count byte is at most 255, for every two bytes of input. -/
theorem length_expand_bounds (e : List Byte) :
    (expand e).length = countSum e ∧ (expand e).length ≤ 255 * e.length / 2 := by
  fun_induction expand e with
  | case1 v c s ih =>
    obtain ⟨hsum, hle⟩ := ih
    have hcount := c.isLt
    simp only [List.length_append, rep_length, List.length_cons, countSum, records_cons, List.map_cons,
      List.sum_cons] at hsum ⊢
    omega
  | case2 e he =>
    match e with
    | [] => simp [countSum]
    | [_] => simp [countSum, records]
    | _ :: _ :: _ => exact absurd rfl (he _ _ _)

/-- Settles O44: `dec` answers `expand`, record by record. -/
theorem decSize : Obligations.DecSize := by
  intro e d h
  obtain ⟨-, rfl⟩ := dec_eq_some h
  exact length_expand_bounds e

theorem length_encGo_le (v c : Byte) (s : List Byte) : (encGo v c s).length ≤ 2 * (s.length + 1) := by
  fun_induction encGo v c s with
  | case1 v c => simp
  | case2 v c x s h ih => simp only [List.length_cons]; omega
  | case3 v c x s h ih => simp only [List.length_cons]; omega

/-- Settles O42: above, a record for each byte at most; below, a record means at most 255 bytes (`decSize`). -/
theorem encSizeBounds : Obligations.EncSizeBounds := by
  intro b
  obtain ⟨heven, -⟩ := encIsValid b
  obtain ⟨-, hlower⟩ := length_expand_bounds (enc b)
  rw [expand_enc] at hlower
  have hupper : (enc b).length ≤ 2 * b.length := by
    cases b with
    | nil => simp
    | cons x s => exact length_encGo_le x 1#8 s
  omega

/-- A full open pair is written, whatever follows it. -/
theorem encGo_maxRun (v : Byte) (s : List Byte) : encGo v maxRun s = v :: maxRun :: enc s := by
  cases s with
  | nil => rfl
  | cons x s => rw [encGo_flush (.inr rfl), enc_cons]

theorem rep_maxRun (x : Byte) : rep x maxRun = List.replicate 255 x := by
  rw [rep, show maxRun.toNat = 255 from rfl]

/-- 255 equal bytes make one full record (40_encode.md R113). -/
theorem enc_replicate_255_append (x : Byte) (s : List Byte) :
    enc (List.replicate 255 x ++ s) = x :: maxRun :: enc s := by
  rw [← rep_maxRun, enc_rep_append (by decide), encGo_maxRun]

/-- A run shorter than 255 bytes makes one record, or none. -/
theorem enc_replicate_of_lt (x : Byte) {r : Nat} (hr : r < 255) :
    enc (List.replicate r x) = if r = 0 then [] else [x, BitVec.ofNat 8 r] := by
  split
  · next hzero => subst hzero; rfl
  · next hpos =>
    have hc : (BitVec.ofNat 8 r).toNat = r := by simp; omega
    have hne : BitVec.ofNat 8 r ≠ 0#8 := fun h => hpos (by rw [← hc, h]; rfl)
    simpa [rep, hc] using enc_rep_append hne x []

theorem enc_replicate (x : Byte) (q : Nat) {r : Nat} (hr : r < 255) :
    enc (List.replicate (q * 255 + r) x) =
      (List.replicate q [x, 255]).flatten ++ (if r = 0 then [] else [x, BitVec.ofNat 8 r]) := by
  induction q with
  | zero => simpa using enc_replicate_of_lt x hr
  | succ q ih =>
    have hlen : (q + 1) * 255 + r = 255 + (q * 255 + r) := by omega
    rw [hlen, List.replicate_add, enc_replicate_255_append, ih]
    rfl

/-- With the open pair at `x`, a run of `x` and then another value: what follows the run is encoded on its own. -/
theorem encGo_replicate_append {x : Byte} {b : List Byte} (hb : b.head? ≠ some x) (c : Byte) (k : Nat) :
    encGo x c (List.replicate k x ++ b) = encGo x c (List.replicate k x) ++ enc b := by
  induction k generalizing c with
  | zero =>
    cases b with
    | nil => rfl
    | cons y b => exact encGo_flush (.inl fun h => hb (by rw [h]; rfl)) b
  | succ k ih =>
    rw [List.replicate_succ, List.cons_append]
    by_cases hroom : c < maxRun
    · rw [encGo_extend hroom, encGo_extend hroom, ih]
    · have hfull := eq_maxRun_of_not_lt hroom
      rw [encGo_flush (.inr hfull), encGo_flush (.inr hfull), ih]
      rfl

theorem enc_replicate_append {x : Byte} {b : List Byte} (hb : b.head? ≠ some x) (k : Nat) :
    enc (List.replicate k x ++ b) = enc (List.replicate k x) ++ enc b := by
  cases k with
  | zero => rfl
  | succ k => exact encGo_replicate_append hb 1#8 k

/-- Settles O43: the two lemmas above. -/
theorem encRunByRun : Obligations.EncRunByRun :=
  ⟨fun x q _ hr => enc_replicate x q hr, fun _ k _ hb => enc_replicate_append hb k⟩

end Sys2Proof.Machine
end

section
/-! PROOFS. A step, by whose turn it is; and that taking a turn off the list keeps what is said of the core alone. -/

namespace Sys2Proof.Machine

/-- Everything a step can do: the two inversions `core_next` and `host_next` as one. -/
theorem step_next {s t : State} (h : step s = .next t) :
    ∃ s0, s.turn = (.core, s0) ∧ CoreStep s0 t ∨ ∃ a, s.turn = (.act a, s0) ∧ HostStep s0 a t := by
  cases hturn : s.turn with
  | mk turn s0 =>
    cases turn with
    | core => exact ⟨s0, .inl ⟨rfl, core_next hturn h⟩⟩
    | act a => exact ⟨s0, .inr ⟨a, rfl, host_next hturn h⟩⟩

/-- Taking a turn leaves the tail of the list, which when it was empty is empty. -/
theorem turn_eq_tail {s s0 : State} {turn : Turn} (ht : s.turn = (turn, s0)) :
    s0 = { s with host := { s.host with moves := s.host.moves.tail } } := by
  have htail : s0.host.moves = s.host.moves.tail := by
    obtain ⟨hnil, -, rfl⟩ | hcons := turn_moves ht
    · rw [hnil, List.tail_nil]
    · rw [hcons, List.tail_cons]
  rw [← htail]
  exact turn_eq ht

/-- A property that the host's side does not matter to holds after a turn is taken if it held before. -/
theorem turn_keeps {P : State → Prop} (hP : ∀ {s : State}, P s → ∀ host, P { s with host := host }) {s s0 : State}
    {turn : Turn} (ht : s.turn = (turn, s0)) (h : P s) : P s0 := by
  rw [turn_eq_tail ht]
  exact hP h _

end Sys2Proof.Machine
end

section
/-! PROOFS. What the instructions, the core's turn and the host's turn leave unchanged (10_state.md R31 to R37; 20_memory.md
R50, R53, R54; 42_control.md R169). -/

namespace Sys2Proof.Machine

/-- Settles O15: the inversions `execEncode_next`, `execDecode_next` and `readRecord_next`, whose next states are updates of
registers alone. -/
theorem instructionFrames : Obligations.InstructionFrames := by
  intro i s t h
  cases i with
  | encode =>
    obtain ⟨-, rfl⟩ | ⟨n, x, -, rfl⟩ := execEncode_next h <;> simp [Instr.format]
  | decode =>
    obtain ⟨-, rfl⟩ | ⟨n, x, -, -, -, -, -, -, -, rfl⟩ | ⟨n, x, -, -, rfl⟩ := execDecode_next h <;>
      simp [Instr.format]
  | pairZero v =>
    obtain ⟨n, -, -, -, -, -, rfl⟩ := readRecord_next h
    simp [Instr.format]
  | pair v c =>
    obtain ⟨n, -, -, -, -, -, rfl⟩ := readRecord_next h
    simp [Instr.format]

/-- The core keeps the inputs of the operation (10_state.md R31, R32; 20_memory.md R53). -/
theorem CoreStep.inputs_eq {s t : State} (h : CoreStep s t) :
    t.mode = s.mode ∧ t.ilen = s.ilen ∧ t.ibuf = s.ibuf := by
  cases h <;> exact ⟨rfl, rfl, rfl⟩

theorem CoreStep.cfg_eq {s t : State} (h : CoreStep s t) : t.cfg = s.cfg := by
  cases h <;> rfl

/-- The core appends to `OBUF` at `WP` (20_memory.md R54): two bytes, one, or none. -/
theorem CoreStep.obuf_frame {s t : State} (h : CoreStep s t) :
    s.wp ≤ t.wp ∧ t.wp ≤ s.wp + 2 ∧ ∀ a, (a < s.wp ∨ t.wp ≤ a) → t.obuf.read a = s.obuf.read a := by
  cases h with
  | idle | eOpen | eExtend | eFinalEmpty | dRead | dFinal => exact ⟨le_rfl, by simp, fun _ _ => rfl⟩
  | eFlush | eFinalFlush =>
    refine ⟨by simp, le_rfl, fun a ha => ?_⟩
    obtain ⟨-, -, hframe⟩ := Memory.read_write_pair s.obuf s.wp s.curByte s.cnt
    dsimp only at ha
    exact hframe a (by omega) (by omega)
  | dEmit =>
    refine ⟨by simp, by simp, fun a ha => ?_⟩
    dsimp only at ha
    exact Memory.read_write_of_ne _ _ (by omega)

/-- Settles O32: `CoreStep.inputs_eq` and `CoreStep.obuf_frame`. -/
theorem coreWritesOnlyAtWp : Obligations.CoreWritesOnlyAtWp := by
  intro s s0 t ht h
  obtain ⟨-, -, -, -, -, hwp, -, -, -, -, hibuf, hobuf, -⟩ := turn_fields ht
  have hstep := core_next ht h
  obtain ⟨-, -, hkept⟩ := hstep.inputs_eq
  rw [← hwp, ← hobuf, ← hibuf]
  exact ⟨hkept, hstep.obuf_frame⟩

theorem HostStep.obuf_eq {s t : State} {a : HostMove} (h : HostStep s a t) : t.obuf = s.obuf := by
  cases h <;> simp

/-- The one move that changes `IBUF`. -/
theorem HostStep.ibuf_eq_or {s t : State} {a : HostMove} (h : HostStep s a t) :
    t.ibuf = s.ibuf ∨ s.st ≠ .run ∧ s.host.awaiting = false ∧
      ∃ i v, a = .writeIbuf i v ∧ t = { s with ibuf := s.ibuf.write i v } := by
  cases h with
  | writeIbuf i v hst hseen => exact .inr ⟨hst, hseen, i, v, rfl, rfl⟩
  | reset | ignoredStart | ignoredMode | ignoredIlen | writeMode | writeIlen | encode | decode | malformed | read
  | readStatus => exact .inl (by simp)

/-- Settles O33: `HostStep.obuf_eq` and `HostStep.ibuf_eq_or`, where a write changes its one index. -/
theorem onlyHostWritesIbuf : Obligations.OnlyHostWritesIbuf := by
  intro s s0 t a ht h
  obtain ⟨-, -, hst, -, -, -, -, -, -, -, hibuf, hobuf, -, -, hawait, -⟩ := turn_fields ht
  have hstep := host_next ht h
  refine ⟨hstep.obuf_eq.trans hobuf, fun j hj => ?_⟩
  rw [← hibuf] at hj
  obtain hkept | ⟨hidle, hseen, i, v, rfl, rfl⟩ := hstep.ibuf_eq_or
  · exact absurd (by rw [hkept]) hj
  · obtain rfl : j = i := by
      by_contra hne
      exact hj (Memory.read_write_of_ne _ _ hne)
    exact ⟨hst ▸ hidle, hawait ▸ hseen, v, rfl, rfl, Memory.read_write_self ..⟩

/-- While `ST = RUN`, a turn of the host that is no `H_RESET` changes the host's side alone (10_state.md R37). -/
theorem HostStep.eq_of_run {s t : State} {a : HostMove} (h : HostStep s a t) (hst : s.st = .run) (ha : a ≠ .reset) :
    ∃ host, t = { s with host := host } := by
  cases h with
  | reset => exact absurd rfl ha
  | ignoredStart | ignoredMode | ignoredIlen => exact ⟨s.host, rfl⟩
  | read a r => exact ⟨_, rfl⟩
  | readStatus r =>
    obtain ⟨b, heq⟩ := seeStatus_eq (s.answer r)
    exact ⟨_, heq⟩
  | writeMode _ hidle | writeIlen _ hidle | writeIbuf _ _ hidle | malformed hidle => exact absurd hst hidle
  | encode hready | decode _ hready => exact absurd hst hready.idle

/-- Settles O34: `CoreStep.inputs_eq` and `HostStep.eq_of_run`. -/
theorem inputsFixedWhileRunning : Obligations.InputsFixedWhileRunning := by
  intro s t h hst hreset
  obtain ⟨s0, hturn⟩ := step_next h
  obtain ⟨ht, hstep⟩ | ⟨a, ht, hstep⟩ := hturn <;>
    obtain ⟨hmode, hilen, hst0, -, -, -, -, -, -, -, hibuf, -⟩ := turn_fields ht <;>
    rw [← hmode, ← hilen, ← hibuf]
  · exact hstep.inputs_eq
  · obtain ⟨host, rfl⟩ := hstep.eq_of_run (hst0.trans hst) fun ha => hreset s0 (ha ▸ ht)
    exact ⟨rfl, rfl, rfl⟩

/-- Outside `RUN` the core's turn changes nothing (60_exceptions.md R191). -/
theorem CoreStep.eq_of_st_ne_run {s t : State} (h : CoreStep s t) (hst : s.st ≠ .run) : t = s := by
  cases h with
  | idle => rfl
  | eOpen hrun | eExtend hrun | eFlush hrun | eFinalEmpty hrun | eFinalFlush hrun | dRead hrun | dEmit hrun
  | dFinal hrun => exact absurd hrun hst

/-- A turn of the host that neither starts nor resets keeps the outcome (42_control.md R169). -/
theorem HostStep.outcome_eq {s t : State} {a : HostMove} (h : HostStep s a t) (hreset : a ≠ .reset)
    (hstart : a ≠ .start) : t.st = s.st ∧ t.errcode = s.errcode ∧ t.wp = s.wp ∧ t.obuf = s.obuf := by
  cases h with
  | reset => exact absurd rfl hreset
  | ignoredStart | encode | decode | malformed => exact absurd rfl hstart
  | ignoredMode | ignoredIlen | writeMode | writeIlen | read | readStatus | writeIbuf => simp

/-- Settles O35: the core does nothing in `DONE` and `ERROR`; for the host, `HostStep.outcome_eq`. -/
theorem outcomeKeptUntilNextStart : Obligations.OutcomeKeptUntilNextStart := by
  intro s t h hended hreset hstart
  obtain ⟨s0, hturn⟩ := step_next h
  obtain ⟨ht, hstep⟩ | ⟨a, ht, hstep⟩ := hturn <;>
    obtain ⟨-, -, hst, herr, -, hwp, -, -, -, -, -, hobuf, -⟩ := turn_fields ht <;>
    rw [← hst, ← herr, ← hwp, ← hobuf]
  · have hidle : s0.st ≠ .run := by rw [hst]; rintro hrun; simp [hrun] at hended
    obtain rfl := hstep.eq_of_st_ne_run hidle
    exact ⟨rfl, rfl, rfl, rfl⟩
  · exact hstep.outcome_eq (fun ha => hreset s0 (ha ▸ ht)) fun ha => hstart s0 (ha ▸ ht)

end Sys2Proof.Machine
end

section
/-! PROOFS. The interval in which the buffers are the core's: from `H_START` until the host has read the end in `ST`
(20_memory.md R65; 70_reset_and_hazards.md R205, R206; log 22). -/

namespace Sys2Proof.Machine

theorem seeStatus_awaiting (s : State) :
    s.seeStatus.host.awaiting = true ↔ s.host.awaiting = true ∧ s.st ≠ .done ∧ s.st ≠ .error := by
  unfold State.seeStatus
  split
  · next h => rcases h with h | h <;> simp [h]
  · next h => rw [not_or] at h; simp [h]

/-- A started operation is awaited; a start that is ignored is no start. -/
theorem HostStep.awaiting_of_start {s t : State} (h : HostStep s .start t) (hst : s.st ≠ .run) :
    t.host.awaiting = true := by
  cases h with
  | ignoredStart hrun => exact absurd hrun hst
  | encode | decode | malformed => rfl
  | read _ _ hread => cases hread

/-- What ends the waiting. -/
theorem HostStep.eq_of_awaiting_ends {s t : State} {a : HostMove} (h : HostStep s a t) (hbefore : s.host.awaiting = true)
    (hafter : t.host.awaiting = false) : a = .reset ∨ a = .read .st ∧ (s.st = .done ∨ s.st = .error) := by
  cases h with
  | reset => exact .inl rfl
  | readStatus r =>
    have hseen := (seeStatus_awaiting (s.answer r)).not.1 (by simp [hafter])
    simp only [answer_host, answer_st, hbefore, true_and] at hseen
    exact .inr ⟨rfl, by tauto⟩
  | ignoredStart | ignoredMode | ignoredIlen | writeMode | writeIlen | encode | decode | malformed | read | writeIbuf =>
    simp [hbefore] at hafter

/-- A running operation stays awaited. -/
theorem HostStep.awaiting_of_run {s t : State} {a : HostMove} (h : HostStep s a t)
    (hbefore : s.st = .run → s.host.awaiting = true) (hafter : t.st = .run) : t.host.awaiting = true := by
  cases h with
  | reset | malformed => simp at hafter
  | encode | decode => rfl
  | ignoredStart hst | ignoredMode _ hst | ignoredIlen _ hst => exact hbefore hst
  | writeMode _ hidle | writeIlen _ hidle | writeIbuf _ _ hidle => exact absurd hafter hidle
  | read => exact hbefore hafter
  | readStatus r =>
    have hst : s.st = .run := by simpa using hafter
    exact (seeStatus_awaiting (s.answer r)).2 ⟨hbefore hst, by simp [hst], by simp [hst]⟩

/-- Every access to a buffer that takes effect was made when the buffers were the host's. -/
theorem HostStep.buffers_free {s t : State} {a : HostMove} (h : HostStep s a t) (ha : a.touchesBuffer = true) :
    s.st ≠ .run ∧ s.host.awaiting = false := by
  cases h with
  | read _ _ _ hfree => exact buffersHeld_eq_false.1 (hfree ha)
  | writeIbuf _ _ hst hseen => exact ⟨hst, hseen⟩
  | reset | ignoredStart | ignoredMode | ignoredIlen | writeMode | writeIlen | encode | decode | malformed
  | readStatus => cases ha

/-- The core does not start anything. -/
theorem CoreStep.run_of_run {s t : State} (h : CoreStep s t) (hst : t.st = .run) : s.st = .run := by
  by_contra hidle
  exact hidle (h.eq_of_st_ne_run hidle ▸ hst)

/-- Settles O60: the four lemmas about `HostStep` above; the core leaves the host's side alone. -/
theorem endReadBeforeBuffers : Obligations.EndReadBeforeBuffers := by
  refine ⟨fun s s0 t ht hst h => (host_next ht h).awaiting_of_start hst, ?_, ?_, ?_⟩
  · intro s t h hbefore hafter
    obtain ⟨s0, hturn⟩ := step_next h
    obtain ⟨ht, hstep⟩ | ⟨a, ht, hstep⟩ := hturn <;>
      obtain ⟨-, -, hst, -, -, -, -, -, -, -, -, -, -, -, hawait, -⟩ := turn_fields ht <;>
      rw [← hawait] at hbefore
    · simp [hstep.host_eq, hbefore] at hafter
    · rw [← hst, ht]
      exact (hstep.eq_of_awaiting_ends hbefore hafter).imp (congrArg Turn.act) (And.imp_left (congrArg Turn.act))
  · intro s t hinv h hafter
    obtain ⟨s0, hturn⟩ := step_next h
    obtain ⟨ht, hstep⟩ | ⟨a, ht, hstep⟩ := hturn <;>
      obtain ⟨-, -, hst, -, -, -, -, -, -, -, -, -, -, -, hawait, -⟩ := turn_fields ht <;>
      rw [← hst, ← hawait] at hinv
    · rw [hstep.host_eq]
      exact hinv (hstep.run_of_run hafter)
    · exact hstep.awaiting_of_run hinv hafter
  · intro s s0 t a ht h ha
    obtain ⟨-, -, hst, -, -, -, -, -, -, -, -, -, -, -, hawait, -⟩ := turn_fields ht
    have htouches : a.touchesBuffer = true := by
      obtain ⟨i, v, rfl⟩ | ⟨i, rfl⟩ | ⟨i, rfl⟩ := ha <;> rfl
    rw [← hst, ← hawait]
    exact (host_next ht h).buffers_free htouches

end Sys2Proof.Machine
end

section
/-! PROOFS. In `RUN` the register invariant lets the core's turn complete, and each turn lowers a measure (42_control.md
R172; 60_exceptions.md R182; 40_encode.md R115; 41_decode.md R145). -/

namespace Sys2Proof.Machine

/-- A running `ENCODE` ends at `RP = ILEN`; below it the byte under `RP` is there to open a pair, extend it, or end it. -/
theorem RegsInv.exists_coreStep_encode {s : State} (h : RegsInv s) (hst : s.st = .run) (hmode : s.mode = some .encode) :
    ∃ t, CoreStep s t := by
  obtain ⟨n, b, hn, hinput, -⟩ := h.running hst
  by_cases hcnt : s.cnt = 0#8
  · obtain heq | hlt := (h.encodeRegs hst hmode hn).rp_le.eq_or_lt
    · exact ⟨_, .eFinalEmpty hst hmode hn heq hcnt⟩
    · obtain ⟨x, hx⟩ := Memory.exists_read_of_bytes hinput hlt
      exact ⟨_, .eOpen hst hmode hn hlt hcnt hx⟩
  · obtain heq | hlt := (h.encodeRegs hst hmode hn).rp_le.eq_or_lt
    · exact ⟨_, .eFinalFlush hst hmode hn heq hcnt⟩
    · obtain ⟨x, hx⟩ := Memory.exists_read_of_bytes hinput hlt
      by_cases hext : x = s.curByte ∧ s.cnt ≠ maxRun
      · obtain ⟨rfl, hroom⟩ := hext
        exact ⟨_, .eExtend hst hmode hn hlt hcnt hx hroom⟩
      · exact ⟨_, .eFlush hst hmode hn hlt hcnt hx (by tauto)⟩

/-- A running `DECODE` writes a pending copy; with none pending it ends at `RP = ILEN` and reads a whole record below
it. -/
theorem RegsInv.exists_coreStep_decode {s : State} (h : RegsInv s) (hst : s.st = .run) (hmode : s.mode = some .decode) :
    ∃ t, CoreStep s t := by
  obtain ⟨n, -, hn, -, -⟩ := h.running hst
  obtain ⟨hregs, e, hinput⟩ := h.decodeRegs hst hmode hn
  by_cases hrem : s.rem = 0#8
  · obtain heq | hlt := hregs.rp_le.eq_or_lt
    · exact ⟨_, .dFinal hst hmode hn heq hrem⟩
    · have hwhole : s.rp + 1 < n := by
        have heven := hregs.n_even
        have hrp := hregs.rp_even
        omega
      obtain ⟨v, hv⟩ := Memory.exists_read_of_bytes hinput hlt
      obtain ⟨c, hc⟩ := Memory.exists_read_of_bytes hinput hwhole
      exact ⟨_, .dRead hst hmode hn hwhole hrem hv hc⟩
  · exact ⟨_, .dEmit hst hmode hrem⟩

/-- Under the register invariant the core's turn always completes. -/
theorem RegsInv.exists_coreStep {s : State} (h : RegsInv s) : ∃ t, CoreStep s t := by
  by_cases hst : s.st = .run
  · obtain ⟨n, x, -, -, ⟨hmode, -⟩ | ⟨hmode, -⟩⟩ := h.running hst
    · exact h.exists_coreStep_encode hst hmode
    · exact h.exists_coreStep_decode hst hmode
  · exact ⟨s, .idle hst⟩

/-- Only `ERROR` has an error code (10_state.md R35). -/
theorem RegsInv.errcode_eq_none {s : State} (h : RegsInv s) (hst : s.st ≠ .error) : s.errcode = .none := by
  cases herr : s.errcode with
  | none => rfl
  | malformedInput => exact absurd (h.errcode.1 herr) hst

theorem CoreStep.run_or_done {s t : State} (h : CoreStep s t) (hst : s.st = .run) : t.st = .run ∨ t.st = .done := by
  cases h with
  | idle hidle => exact absurd hst hidle
  | eOpen | eExtend | eFlush | dRead | dEmit => exact .inl hst
  | eFinalEmpty | eFinalFlush | dFinal => exact .inr rfl

/-- Settles O27: `RegsInv.exists_coreStep`; the step keeps `ERRCODE`. -/
theorem runningCoreNeverStops : Obligations.RunningCoreNeverStops := by
  intro s s0 ht hinv hst
  obtain ⟨t, hstep⟩ := hinv.exists_coreStep
  exact ⟨t, step_of_coreStep ht hstep, hstep.run_or_done hst,
    hstep.errcode_eq.trans (hinv.errcode_eq_none (by simp [hst]))⟩

/-- Each core step of an `ENCODE` reads a byte or leaves `RUN` at the end of the input. -/
theorem CoreStep.encodeMeasure_falls {s t : State} {n : Nat} (h : CoreStep s t) (hst : s.st = .run)
    (hmode : s.mode = some .encode) (hn : s.ilen = some n) : encodeMeasure n t + 1 = encodeMeasure n s := by
  cases h with
  | idle hidle => exact absurd hst hidle
  | eOpen _ _ hk hlt | eExtend _ _ hk hlt | eFlush _ _ hk hlt =>
    obtain rfl := Option.some.inj (hn.symm.trans hk)
    simp only [encodeMeasure, hst, if_true]
    omega
  | eFinalEmpty | eFinalFlush => simp [encodeMeasure, hst]
  | dRead _ hdec | dEmit _ hdec | dFinal _ hdec => simp [hmode] at hdec

/-- Settles O29: `CoreStep.encodeMeasure_falls`. -/
theorem encodeMeasureFalls : Obligations.EncodeMeasureFalls := by
  intro s s0 n ht hinv hst hmode hn
  obtain ⟨t, hstep⟩ := hinv.exists_coreStep
  exact ⟨t, step_of_coreStep ht hstep, hstep.encodeMeasure_falls hst hmode hn⟩

/-- Each core step of a `DECODE` reads a record, worth 256 and at most 255 copies, writes a copy, or leaves `RUN`. -/
theorem CoreStep.decodeMeasure_falls {s t : State} {n : Nat} (h : CoreStep s t) (hst : s.st = .run)
    (hmode : s.mode = some .decode) (hn : s.ilen = some n) : decodeMeasure n t < decodeMeasure n s := by
  cases h with
  | idle hidle => exact absurd hst hidle
  | @dRead k v c _ _ hk hlt hrem =>
    obtain rfl := Option.some.inj (hn.symm.trans hk)
    have hcount := c.isLt
    simp only [decodeMeasure, hst, if_true]
    omega
  | dEmit _ _ hrem =>
    have hfall := toNat_sub_one hrem
    simp only [decodeMeasure, hst, if_true]
    omega
  | dFinal => simp [decodeMeasure, hst]
  | eOpen _ henc | eExtend _ henc | eFlush _ henc | eFinalEmpty _ henc | eFinalFlush _ henc => simp [hmode] at henc

/-- Settles O30: `CoreStep.decodeMeasure_falls`. -/
theorem decodeMeasureFalls : Obligations.DecodeMeasureFalls := by
  intro s s0 n ht hinv hst hmode hn
  obtain ⟨t, hstep⟩ := hinv.exists_coreStep
  exact ⟨t, step_of_coreStep ht hstep, hstep.decodeMeasure_falls hst hmode hn⟩

/-- Settles O25: `CoreStep.eExtend`, `eFlush`, `eFinalFlush` and `dEmit`, the byte being the free value that `curByte` or
`valByte` reads. -/
theorem unwrittenRegistersRunOn : Obligations.UnwrittenRegistersRunOn := by
  refine ⟨fun s s0 n x ht hst hmode hn hlt hcnt _ hx => ?_, fun s s0 ht hst hmode hn hcnt _ => ?_,
    fun s s0 ht hst hmode hrem _ => ?_⟩
  · by_cases hext : x = s0.curByte ∧ s0.cnt < maxRun
    · obtain ⟨rfl, hroom⟩ := hext
      exact .inl ⟨_, toNat_add_one hroom,
        step_of_coreStep ht (.eExtend hst hmode hn hlt hcnt hx (ne_maxRun_of_lt hroom))⟩
    · have hdiff : x ≠ s0.curByte ∨ s0.cnt = maxRun := (not_and_or.1 hext).imp_right eq_maxRun_of_not_lt
      exact .inr ⟨_, _, step_of_coreStep ht (.eFlush hst hmode hn hlt hcnt hx hdiff), Memory.read_write_pair ..⟩
  · exact ⟨_, _, step_of_coreStep ht (.eFinalFlush hst hmode hn rfl hcnt), Memory.read_write_pair ..⟩
  · exact ⟨_, _, _, step_of_coreStep ht (.dEmit hst hmode hrem), (toNat_sub_one hrem).symm,
      Memory.read_write_self .., fun a ha => Memory.read_write_of_ne _ _ ha⟩

end Sys2Proof.Machine
end

section
/-! PROOFS. Where a step can answer a fault (log 12): the host's read of a result byte that is not there, and a core that
runs outside the invariant. -/

namespace Sys2Proof.Machine

theorem launch_ne_fault (len : Nat) (s : State) (f : Fault) : launch len s ≠ .fault f := by
  unfold launch
  split
  · exact nofun
  · split <;> exact nofun

theorem withOperand_ne_fault {s : State} {entry : Nat → List Byte → Host.Outcome State Fault Refusal} {f : Fault}
    (h : ∀ n x, entry n x ≠ .fault f) : withOperand s entry ≠ .fault f := by
  unfold withOperand
  split
  · exact nofun
  · split
    · exact nofun
    · split
      · exact nofun
      · split
        · exact nofun
        · exact h _ _

/-- The command that `MODE` selects never faults. -/
theorem exec_command_ne_fault {m : Mode} {s : State} (hst : s.st ≠ .run) (hmode : s.mode = some m) (f : Fault) :
    exec m.command s ≠ .fault f := by
  cases m with
  | encode =>
    simp only [Mode.command, exec, execEncode, hst, hmode, ne_eq, not_true, if_false]
    exact withOperand_ne_fault fun n x => launch_ne_fault _ _ f
  | decode =>
    simp only [Mode.command, exec, execDecode, hst, hmode, ne_eq, not_true, if_false]
    refine withOperand_ne_fault fun n x => ?_
    split
    · exact nofun
    · exact launch_ne_fault _ _ f

theorem step_start_ne_fault {s s0 : State} (ht : s.turn = (.act .start, s0)) (f : Fault) : step s ≠ .fault f := by
  by_cases hst : s0.st = .run
  · rw [step_act ht, fetchHost, fetchCommand_of_run hst]
    exact nofun
  · cases hmode : s0.mode with
    | none => simp [step_act ht, fetchHost, fetchCommand, hst, hmode]
    | some m =>
      rw [step_start ht hst hmode]
      exact exec_command_ne_fault (s := s0.awaitEnd) hst hmode f

/-- The host's one fault: a byte of the result that nothing has written. -/
theorem hReadObuf_eq_fault {i : Nat} {s : State} {f : Fault} (h : hReadObuf i s = .fault f) :
    f = .unwrittenOutput i ∧ i < s.wp ∧ s.obuf.read i = none := by
  unfold hReadObuf at h
  split at h
  · cases h
  · split at h
    · next hresult =>
      obtain ⟨-, hlt⟩ := hresult
      split at h
      · next hread => cases h; exact ⟨rfl, hlt, hread⟩
      · cases h
    · cases h

theorem hRead_ne_fault (r : Item) (s : State) (f : Fault) : hRead r s ≠ .fault f := by
  cases r with
  | mode => cases hmode : s.mode <;> simp [hRead, hmode]
  | ilen => cases hilen : s.ilen <;> simp [hRead, hilen]
  | start | st | errcode | olen => exact nofun

theorem host_fault {s s0 : State} {a : HostMove} {f : Fault} (ht : s.turn = (.act a, s0)) (h : step s = .fault f) :
    ∃ i, f = .unwrittenOutput i ∧ i < s0.wp ∧ s0.obuf.read i = none := by
  cases a with
  | start => exact absurd h (step_start_ne_fault ht f)
  | reset => simp [step_act ht, fetchHost] at h
  | read r =>
    rw [step_act ht] at h
    exact absurd h (hRead_ne_fault r s0 f)
  | readObuf i =>
    rw [step_act ht] at h
    exact ⟨i, hReadObuf_eq_fault h⟩
  | writeMode m =>
    simp only [step_act ht, fetchHost, runFetched_other, hWriteMode] at h
    split at h <;> cases h
  | writeIlen n =>
    simp only [step_act ht, fetchHost, runFetched_other, hWriteIlen] at h
    split at h
    · cases h
    · split at h <;> cases h
  | writeIbuf i v =>
    simp only [step_act ht, fetchHost, runFetched_other, hWriteIbuf] at h
    split at h
    · cases h
    · split at h <;> cases h
  | readIbuf i =>
    simp only [step_act ht, fetchHost, runFetched_other, hReadIbuf] at h
    split at h
    · cases h
    · split at h
      · cases h
      · split at h <;> cases h

/-- The register invariant speaks of the core alone. -/
theorem RegsInv.withHost {s : State} (h : RegsInv s) (host : HostSide) : RegsInv { s with host := host } := by
  refine ⟨h.ibuf_wf, h.obuf_wf, h.errcode, h.idle_wp, h.error_wp, h.written, fun hst => ?_⟩
  obtain ⟨n, x, hn, hinput, ⟨hmode, g⟩ | ⟨hmode, g⟩⟩ := h.running hst
  · exact ⟨n, x, hn, hinput, .inl ⟨hmode, g.rp_le, g.wp_even, g.cnt_zero, g.wp_le, g.pairRun⟩⟩
  · exact ⟨n, x, hn, hinput, .inr ⟨hmode, g.n_even, g.rp_even, g.rp_le, g.copying⟩⟩

/-- Settles O28: the core's turn completes (`RegsInv.exists_coreStep`), and the bytes of the result are written. -/
theorem invariantStatesNeverFault : Obligations.InvariantStatesNeverFault := by
  intro s f hinv h
  cases hturn : s.turn with
  | mk turn s0 =>
    have hinv0 : RegsInv s0 := turn_keeps RegsInv.withHost hturn hinv
    cases turn with
    | core =>
      obtain ⟨t, hstep⟩ := hinv0.exists_coreStep
      simp [step_of_coreStep hturn hstep] at h
    | act a =>
      obtain ⟨i, -, hlt, hread⟩ := host_fault hturn h
      obtain ⟨out, hout⟩ := Option.isSome_iff_exists.1 hinv0.written
      obtain ⟨v, hv⟩ := Memory.exists_read_of_bytes hout hlt
      simp [hread] at hv

/-- A meaning is run by the core where its guard holds, so reading a record there is selected. -/
theorem readRecord_ne_notSelected {v c : Byte} {s : State} (hg : MicroStep.guard .dRead s = true) :
    readRecord v c s ≠ .fault .notSelected := by
  obtain ⟨-, -, -, n, hn, -⟩ := guard_dRead_iff.1 hg
  simp only [readRecord, hg, hn, Bool.not_true, Bool.false_eq_true, if_false]
  split <;> exact nofun

theorem fetchRecord_ne_notSelected {s : State} {n : Nat} (hg : MicroStep.guard .dRead s = true) :
    runFetched (fetchRecord n s) ≠ .fault .notSelected := by
  unfold fetchRecord State.recordBytes
  cases hv : s.ibuf.read s.rp with
  | none => simp
  | some v =>
    by_cases hlt : s.rp + 1 < n
    · cases hc : s.ibuf.read (s.rp + 1) with
      | none => simp [hlt]
      | some c =>
        by_cases h0 : c = 0#8 <;>
          simpa [hlt, Sys2Proof.decode, recordOf, h0, exec, execPairZero, execPair] using readRecord_ne_notSelected hg
    · simp [hlt, Sys2Proof.decode, rejected]

theorem effect_ne_notSelected {s : State} {m : MicroStep} (hg : m.guard s = true) : m.effect s ≠ .fault .notSelected := by
  cases m with
  | eExtend | dEmit | dFinal => exact nofun
  | eOpen => cases hx : s.peek <;> simp [MicroStep.effect, Machine.eOpen, hx]
  | eChange => cases hx : s.peek <;> simp [MicroStep.effect, Machine.eChange, flushAndRestart, hx]
  | eSplit => cases hx : s.peek <;> simp [MicroStep.effect, Machine.eSplit, flushAndRestart, hx]
  | eFinal => by_cases hcnt : s.cnt = 0#8 <;> simp [MicroStep.effect, Machine.eFinal, hcnt]
  | dRead => exact fetchRecord_ne_notSelected hg

theorem stuck_ne_notSelected (s : State) : stuck s ≠ .notSelected := by
  unfold stuck
  split
  · split <;> exact nofun
  · exact nofun

theorem core_ne_notSelected {s s0 : State} (ht : s.turn = (.core, s0)) : step s ≠ .fault .notSelected := by
  cases hen : s0.enabled with
  | some m =>
    have hg := enabled_guard hen
    rw [step_of_guard ht hg]
    exact effect_ne_notSelected hg
  | none =>
    by_cases hst : s0.st = .run
    · simpa [step_core ht, fetchCore, hst, hen] using stuck_ne_notSelected s0
    · simp [step_core ht, fetchCore, hst]

theorem exec_command_of_not_selected {m : Mode} {s : State} (hst : s.st ≠ .run) (hmode : s.mode ≠ some m) :
    exec m.command s = .fault .notSelected := by
  cases m with
  | encode => simp [Mode.command, exec, execEncode, hst, hmode]
  | decode => simp [Mode.command, exec, execDecode, hst, hmode]

theorem exec_record {i : Instr} (hi : i.format = .record) : ∃ v c, exec i = readRecord v c := by
  cases i with
  | pairZero v => exact ⟨v, 0#8, rfl⟩
  | pair v c => exact ⟨v, c, rfl⟩
  | encode | decode => cases hi

/-- Settles O16: the tests at the head of each meaning; the core runs a step only where its guard holds
(`core_ne_notSelected`), and the host's one fault is another (`host_fault`). -/
theorem meaningsRunOnlyWhereSelected : Obligations.MeaningsRunOnlyWhereSelected := by
  refine ⟨fun m s => exec_command_of_not_selected, fun i s hi => ?_, fun s h => ?_⟩
  · obtain ⟨v, c, hexec⟩ := exec_record hi
    rw [hexec]
    exact ⟨fun hg => by simp [readRecord, hg], fun hg hn => by simp [readRecord, hg, hn]⟩
  · cases hturn : s.turn with
    | mk turn s0 =>
      cases turn with
      | core => exact core_ne_notSelected hturn h
      | act a =>
        obtain ⟨i, hf, -⟩ := host_fault hturn h
        cases hf

end Sys2Proof.Machine
end

section
/-! PROOFS. The register invariant and its step (10_state.md R45, R35, R36). -/

namespace Sys2Proof.Machine

/-- What is written stays written. -/
theorem CoreStep.out_eq {s t : State} {out : List Byte} (h : CoreStep s t) (hout : s.out = some out) :
    ∃ w, t.out = some (out ++ w) := by
  cases h with
  | idle | eOpen | eExtend | eFinalEmpty | dRead | dFinal => exact ⟨[], by rw [List.append_nil]; exact hout⟩
  | eFlush | eFinalFlush => exact ⟨_, Memory.bytes_write_pair s.curByte s.cnt hout⟩
  | dEmit => exact ⟨_, Memory.bytes_write_end s.valByte hout⟩

theorem CoreStep.obuf_wf {s t : State} (h : CoreStep s t) (hwf : Memory.wf s.obuf) : Memory.wf t.obuf := by
  cases h with
  | idle | eOpen | eExtend | eFinalEmpty | dRead | dFinal => exact hwf
  | eFlush | eFinalFlush => exact Memory.wf_write (Memory.wf_write hwf _ _) _ _
  | dEmit => exact Memory.wf_write hwf _ _

/-- A pair opened on the byte just read (40_encode.md R103, R105, R106). -/
theorem EncodeRegs.of_opened {s t : State} {n : Nat} {x : Byte} (h : EncodeRegs s n) (hlt : s.rp < n)
    (hx : s.ibuf.read s.rp = some x) (hibuf : t.ibuf = s.ibuf) (hrp : t.rp = s.rp + 1) (hcur : t.cur = some x)
    (hcnt : t.cnt = 1#8) (hwp : t.wp = s.wp ∨ t.wp = s.wp + 2) : EncodeRegs t n where
  rp_le := by omega
  wp_even := by have := h.wp_even; omega
  cnt_zero := by simp [hcnt, hrp]
  wp_le := by have := h.wp_le; omega
  pairRun _ := by
    have hone : t.cnt.toNat = 1 := by rw [hcnt]; rfl
    refine ⟨by omega, x, hcur, fun i hlow hhigh => ?_⟩
    obtain rfl : i = s.rp := by omega
    rw [hibuf, hx]

/-- One more byte of the open pair's value (40_encode.md R104). -/
theorem EncodeRegs.extend {s : State} {n : Nat} (h : EncodeRegs s n) (hlt : s.rp < n) (hcnt : s.cnt ≠ 0#8)
    (hx : s.ibuf.read s.rp = some s.curByte) (hfull : s.cnt ≠ maxRun) :
    EncodeRegs { s with cnt := s.cnt + 1#8, rp := s.rp + 1 } n := by
  have hroom : s.cnt < maxRun := by by_contra hfull'; exact hfull (eq_maxRun_of_not_lt hfull')
  have hrise := toNat_add_one hroom
  have hopen : s.cnt + 1#8 ≠ 0#8 := by bv_omega
  obtain ⟨hle, v, hv, hrun⟩ := h.pairRun hcnt
  have hwp := h.wp_le
  refine ⟨hlt, h.wp_even, by simp [hopen], by simp only; omega, fun _ => ⟨by simp only; omega, v, hv, ?_⟩⟩
  intro i hlow hhigh
  simp only [hrise] at hlow hhigh
  obtain rfl | hbelow : i = s.rp ∨ i < s.rp := by omega
  · rw [hx, curByte_of_cur hv]
  · exact hrun i (by omega) hbelow

theorem CoreStep.encodeRegs {s t : State} {n : Nat} (h : CoreStep s t) (hst : t.st = .run) (hmode : s.mode = some .encode)
    (hn : s.ilen = some n) (hregs : EncodeRegs s n) : EncodeRegs t n := by
  cases h with
  | idle => exact hregs
  | eOpen _ _ hk hlt _ hx =>
    obtain rfl := Option.some.inj (hn.symm.trans hk)
    exact hregs.of_opened hlt hx rfl rfl rfl rfl (.inl rfl)
  | eExtend _ _ hk hlt hcnt hx hfull =>
    obtain rfl := Option.some.inj (hn.symm.trans hk)
    exact hregs.extend hlt hcnt hx hfull
  | eFlush _ _ hk hlt _ hx =>
    obtain rfl := Option.some.inj (hn.symm.trans hk)
    exact hregs.of_opened hlt hx rfl rfl rfl rfl (.inr rfl)
  | eFinalEmpty | eFinalFlush => cases hst
  | dRead _ hdec | dEmit _ hdec | dFinal _ hdec => simp [hmode] at hdec

theorem CoreStep.decodeRegs {s t : State} {n : Nat} (h : CoreStep s t) (hst : t.st = .run) (hmode : s.mode = some .decode)
    (hn : s.ilen = some n) (hregs : DecodeRegs s n) : DecodeRegs t n := by
  have heven := hregs.n_even
  have hrpEven := hregs.rp_even
  cases h with
  | idle => exact hregs
  | @dRead k v c _ _ hk hlt hrem hv hc =>
    obtain rfl := Option.some.inj (hn.symm.trans hk)
    exact ⟨heven, by simp only; omega, by simp only; omega, fun _ => ⟨by simp, v, c, rfl, hv, hc, le_rfl⟩⟩
  | dEmit _ _ hrem =>
    obtain ⟨hle, v, c, hv, hreadv, hreadc, hcount⟩ := hregs.copying hrem
    have hfall := toNat_sub_one hrem
    exact ⟨heven, hrpEven, hregs.rp_le, fun _ => ⟨hle, v, c, hv, hreadv, hreadc, by simp only; omega⟩⟩
  | dFinal => cases hst
  | eOpen _ henc | eExtend _ henc | eFlush _ henc | eFinalEmpty _ henc | eFinalFlush _ henc => simp [hmode] at henc

/-- The input is a matter of `IBUF` alone. -/
theorem input_congr {s t : State} (h : t.ibuf = s.ibuf) (n : Nat) : t.input n = s.input n :=
  congrArg (Memory.bytes · n) h

theorem CoreStep.regsInv {s t : State} (h : CoreStep s t) (hinv : RegsInv s) : RegsInv t := by
  by_cases hst : s.st = .run
  · obtain ⟨hmode, hilen, hibuf⟩ := h.inputs_eq
    obtain ⟨out, hout⟩ := Option.isSome_iff_exists.1 hinv.written
    obtain ⟨w, hw⟩ := h.out_eq hout
    have hend := h.run_or_done hst
    have hnone : t.errcode = .none := h.errcode_eq.trans (hinv.errcode_eq_none (by simp [hst]))
    refine ⟨hibuf ▸ hinv.ibuf_wf, h.obuf_wf hinv.obuf_wf, ?_, ?_, ?_, by simp [hw], fun hrun => ?_⟩
    · rcases hend with hend | hend <;> simp [hnone, hend]
    · rcases hend with hend | hend <;> simp [hend]
    · rcases hend with hend | hend <;> simp [hend]
    · obtain ⟨n, x, hn, hinput, hregs⟩ := hinv.running hst
      refine ⟨n, x, hilen.trans hn, (input_congr hibuf n).trans hinput, hregs.imp ?_ ?_⟩
      · exact fun ⟨henc, g⟩ => ⟨hmode.trans henc, h.encodeRegs hrun henc hn g⟩
      · exact fun ⟨hdec, g⟩ => ⟨hmode.trans hdec, h.decodeRegs hrun hdec hn g⟩
  · rw [h.eq_of_st_ne_run hst]
    exact hinv

theorem HostStep.regsInv {s t : State} {a : HostMove} (h : HostStep s a t) (hinv : RegsInv s) : RegsInv t := by
  have hibuf := hinv.ibuf_wf
  have hobuf := hinv.obuf_wf
  cases h with
  | ignoredStart | ignoredMode | ignoredIlen => exact hinv
  | reset => exact ⟨hibuf, hobuf, by simp, fun _ => rfl, fun _ => rfl, rfl, nofun⟩
  | writeMode _ hst | writeIlen _ hst =>
    exact ⟨hibuf, hobuf, hinv.errcode, hinv.idle_wp, hinv.error_wp, hinv.written, fun hrun => absurd hrun hst⟩
  | writeIbuf i v hst =>
    exact ⟨Memory.wf_write hibuf i v, hobuf, hinv.errcode, hinv.idle_wp, hinv.error_wp, hinv.written,
      fun hrun => absurd hrun hst⟩
  | encode hready =>
    refine ⟨hibuf, hobuf, by simp, nofun, nofun, rfl, fun _ => ⟨_, _, hready.ilen, hready.input, .inl ?_⟩⟩
    exact ⟨hready.mode, Nat.zero_le _, rfl, by simp, by simp, fun hopen => absurd rfl hopen⟩
  | decode heven hready =>
    refine ⟨hibuf, hobuf, by simp, nofun, nofun, rfl, fun _ => ⟨_, _, hready.ilen, hready.input, .inr ?_⟩⟩
    exact ⟨hready.mode, heven, rfl, Nat.zero_le _, fun hcopy => absurd rfl hcopy⟩
  | malformed => exact ⟨hibuf, hobuf, by simp, fun _ => rfl, fun _ => rfl, rfl, nofun⟩
  | read => exact hinv.withHost _
  | readStatus r =>
    obtain ⟨b, heq⟩ := seeStatus_eq (s.answer r)
    rw [heq]
    exact hinv.withHost _

/-- Settles O37: `CoreStep.regsInv` and `HostStep.regsInv`, the case analyses over everything a turn can do. -/
theorem stepKeepsRegs : Obligations.StepKeepsRegs := by
  intro s t hinv h
  obtain ⟨s0, hturn⟩ := step_next h
  obtain ⟨ht, hstep⟩ | ⟨a, ht, hstep⟩ := hturn
  · exact hstep.regsInv (turn_keeps RegsInv.withHost ht hinv)
  · exact hstep.regsInv (turn_keeps RegsInv.withHost ht hinv)

end Sys2Proof.Machine
end

section
/-! PROOFS. An operation in progress, of either kind (40_encode.md R114; 41_decode.md R144): the simulations `Encoding` and
`Decoding` as one, with the number of core steps still to take (70_reset_and_hazards.md R215). -/

namespace Sys2Proof.Machine

/-- The operation `m` on the input `x` is in progress and takes `k` more core steps. -/
def Operating : Mode → List Byte → Nat → State → Prop
  | .encode, b, k, s => Encoding b s ∧ k = b.length - s.rp + 1
  | .decode, e, k, s => Decoding e s ∧ k = stepsLeft e s

/-- The operation `m` on the input `x` has ended with its result (40_encode.md R118; 41_decode.md R146). -/
structure Finished (m : Mode) (x : List Byte) (t : State) : Prop where
  st      : t.st = .done
  errcode : t.errcode = .none
  out     : t.out = some (result m x)

/-- A core step takes one from the steps left, and the last one ends the operation. -/
theorem Operating.exists_coreStep {m : Mode} {x : List Byte} {k : Nat} {s : State} (h : Operating m x k s) :
    ∃ t, CoreStep s t ∧ (k = 1 ∧ Finished m x t ∨ ∃ j, k = j + 1 ∧ Operating m x j t) := by
  cases m with
  | encode =>
    obtain ⟨henc, rfl⟩ := h
    obtain heq | hlt := henc.rp_le.eq_or_lt
    · obtain ⟨t, hstep, hst, herr, hout⟩ := henc.coreStep_ends heq
      exact ⟨t, hstep, .inl ⟨by omega, hst, herr, hout⟩⟩
    · obtain ⟨t, hstep, hnext, hrp⟩ := henc.coreStep_reads hlt
      exact ⟨t, hstep, .inr ⟨_, by omega, hnext, rfl⟩⟩
  | decode =>
    obtain ⟨hdec, rfl⟩ := h
    by_cases hleft : stepsLeft x s = 1
    · obtain ⟨t, hstep, hst, herr, hout⟩ := hdec.coreStep_ends hleft
      exact ⟨t, hstep, .inl ⟨hleft, hst, herr, hout⟩⟩
    · have hpos : 1 ≤ stepsLeft x s := by simp only [stepsLeft, operationSteps]; omega
      obtain ⟨t, hstep, hnext, hfall⟩ := hdec.coreStep_continues (by omega)
      exact ⟨t, hstep, .inr ⟨_, hfall, hnext, rfl⟩⟩

/-- The core's turn does one thing (42_control.md R166). -/
theorem CoreStep.unique {s t u : State} (ht : CoreStep s t) (hu : CoreStep s u) : t = u := by
  have hturn : State.turn { s with host := { s.host with moves := .core :: s.host.moves } } = (.core, s) := rfl
  simpa [step_of_coreStep hturn ht] using step_of_coreStep hturn hu

theorem Operating.coreStep {m : Mode} {x : List Byte} {k : Nat} {s t : State} (h : Operating m x k s)
    (hstep : CoreStep s t) : k = 1 ∧ Finished m x t ∨ ∃ j, k = j + 1 ∧ Operating m x j t := by
  obtain ⟨u, hu, hnext⟩ := h.exists_coreStep
  rwa [hstep.unique hu]

/-- What an operation in progress holds, of either kind; what is written is the beginning of the result. -/
theorem Operating.registers {m : Mode} {x : List Byte} {k : Nat} {s : State} (h : Operating m x k s) :
    s.st = .run ∧ s.mode = some m ∧ s.ilen = some x.length ∧ s.input x.length = some x ∧
    ∃ out rest, s.out = some out ∧ out ++ rest = result m x := by
  cases m with
  | encode =>
    obtain ⟨henc, -⟩ := h
    obtain ⟨out, hout, hcome⟩ := henc.progress
    exact ⟨henc.st, henc.mode, henc.ilen, henc.input, out, _, hout, hcome⟩
  | decode =>
    obtain ⟨hdec, -⟩ := h
    obtain ⟨out, hout, hcome⟩ := hdec.progress
    rw [List.append_assoc] at hcome
    exact ⟨hdec.st, hdec.mode, hdec.ilen, hdec.input, out, _, hout, hcome⟩

/-- Of the host's side nothing matters to an operation. -/
theorem Operating.withHost {m : Mode} {x : List Byte} {k : Nat} {s : State} (h : Operating m x k s) (host : HostSide) :
    Operating m x k { s with host := host } := by
  cases m with
  | encode =>
    obtain ⟨henc, hk⟩ := h
    exact ⟨⟨henc.st, henc.mode, henc.ilen, henc.input, henc.errcode, henc.rp_le, henc.progress⟩, hk⟩
  | decode =>
    obtain ⟨hdec, hk⟩ := h
    exact ⟨⟨hdec.st, hdec.mode, hdec.ilen, hdec.input, hdec.errcode, hdec.rp_le, hdec.whole, hdec.progress⟩, hk⟩

end Sys2Proof.Machine
end

section
/-! PROOFS. The content invariant and its step: under the register invariant it says that an operation is in progress
(40_encode.md R114; 41_decode.md R144). -/

namespace Sys2Proof.Machine

/-- What is written is whole records, the open pair is one more, and they mean what has been read: all of it follows from
what is still to come. -/
theorem Encoding.encodeLoop {s : State} {b out : List Byte} (h : Encoding b s) (hregs : EncodeRegs s b.length)
    (hout : s.out = some out) : EncodeLoop s b out := by
  obtain ⟨out', hout', hcome⟩ := h.progress
  obtain rfl : out = out' := Option.some.inj (hout.symm.trans hout')
  have hlen : out.length = s.wp := Memory.bytes_length hout
  by_cases hcnt : s.cnt = 0#8
  · have hrp := hregs.cnt_zero.1 hcnt
    have hwp := hregs.wp_le
    obtain rfl : out = [] := List.length_eq_zero_iff.1 (by omega)
    have hpair : s.openPair = [] := if_pos hcnt
    exact ⟨by simp [hpair, ValidEncoded], by simp [hpair, hrp], fun _ => ⟨rfl, hrp⟩, fun hopen => absurd hcnt hopen⟩
  · rw [toCome_of_cnt_ne hcnt] at hcome
    have hpair : s.openPair = [s.curByte, s.cnt] := if_neg hcnt
    have heven : out.length % 2 = 0 := hlen ▸ hregs.wp_even
    obtain ⟨⟨-, hcounts⟩, -⟩ := enc_canonical b
    rw [← hcome, records_append heven] at hcounts
    refine ⟨⟨?_, fun p hp => ?_⟩, ?_, fun hclosed => absurd hclosed hcnt, fun _ => hcome.symm⟩
    · simp [hpair, heven]
    · rw [hpair, records_append heven, List.mem_append] at hp
      obtain hp | hp := hp
      · exact hcounts p (List.mem_append_left _ hp)
      · obtain rfl : p = (s.curByte, s.cnt) := by simpa using hp
        exact count_range_iff.2 hcnt
    · have hmeans : expand (out ++ s.openPair) ++ b.drop s.rp = b.take s.rp ++ b.drop s.rp := by
        calc expand (out ++ s.openPair) ++ b.drop s.rp
            = expand (out ++ encGo s.curByte s.cnt (b.drop s.rp)) := by
              rw [hpair, expand_append heven, expand_append heven, expand_encGo]; simp
          _ = b.take s.rp ++ b.drop s.rp := by rw [hcome, expand_enc, List.take_append_drop]
      exact List.append_cancel_right hmeans

theorem Decoding.decodeLoop {s : State} {e out : List Byte} (h : Decoding e s) (hregs : DecodeRegs s e.length)
    (hout : s.out = some out) : DecodeLoop s e out := by
  obtain ⟨out', hout', hcome⟩ := h.progress
  obtain rfl : out = out' := Option.some.inj (hout.symm.trans hout')
  have heven : (e.take s.rp).length % 2 = 0 := by
    rw [List.length_take_of_le hregs.rp_le]
    exact hregs.rp_even
  refine ⟨List.append_cancel_right (bs := expand (e.drop s.rp)) ?_, hcome.symm⟩
  rw [hcome, ← expand_append heven, List.take_append_drop]

/-- Both invariants together say that an operation is in progress. -/
theorem RegsInv.exists_operating {s : State} (h : RegsInv s) (hloop : LoopInv s) (hst : s.st = .run) :
    ∃ m x k, Operating m x k s := by
  obtain ⟨n, x, hn, hinput, hregs⟩ := h.running hst
  obtain rfl : x.length = n := Memory.bytes_length hinput
  obtain ⟨out, hout⟩ := Option.isSome_iff_exists.1 h.written
  obtain ⟨hencode, hdecode⟩ := hloop hst _ x out hn hinput hout
  have herr := h.errcode_eq_none (by simp [hst])
  obtain ⟨hmode, hregs⟩ | ⟨hmode, hregs⟩ := hregs
  · refine ⟨.encode, x, _, ⟨hst, hmode, hn, hinput, herr, hregs.rp_le, out, hout, ?_⟩, rfl⟩
    have hL := hencode hmode
    by_cases hcnt : s.cnt = 0#8
    · obtain ⟨rfl, hrp⟩ := hL.fresh hcnt
      rw [toCome_of_cnt_eq hcnt, hrp]
      rfl
    · rw [toCome_of_cnt_ne hcnt, ← hL.toCome hcnt]
  · refine ⟨.decode, x, _, ⟨hst, hmode, hn, hinput, herr, hregs.rp_le, ?_, out, hout, ?_⟩, rfl⟩
    · have heven := hregs.n_even
      have hrp := hregs.rp_even
      rw [List.length_drop]
      omega
    · exact (hdecode hmode).toCome.symm

theorem Operating.loopInv {m : Mode} {x : List Byte} {k : Nat} {s : State} (h : Operating m x k s) (hinv : RegsInv s) :
    LoopInv s := by
  obtain ⟨hst, hmode, hilen, hinput, -⟩ := h.registers
  intro _ n y out hn hy hout
  obtain rfl : x.length = n := Option.some.inj (hilen.symm.trans hn)
  obtain rfl : x = y := Option.some.inj (hinput.symm.trans hy)
  cases m with
  | encode =>
    obtain ⟨henc, -⟩ := h
    exact ⟨fun _ => henc.encodeLoop (hinv.encodeRegs hst hmode hn) hout, fun hdec => by simp [hmode] at hdec⟩
  | decode =>
    obtain ⟨hdec, -⟩ := h
    obtain ⟨hregs, -⟩ := hinv.decodeRegs hst hmode hn
    exact ⟨fun henc => by simp [hmode] at henc, fun _ => hdec.decodeLoop hregs hout⟩

theorem LoopInv.of_st_ne_run {s : State} (hst : s.st ≠ .run) : LoopInv s := fun hrun => absurd hrun hst

theorem CoreStep.loopInv {s t : State} (h : CoreStep s t) (hinv : RegsInv s) (hloop : LoopInv s) : LoopInv t := by
  by_cases hst : s.st = .run
  · obtain ⟨m, x, k, hop⟩ := hinv.exists_operating hloop hst
    obtain ⟨-, hfin⟩ | ⟨j, -, hnext⟩ := hop.coreStep h
    · exact .of_st_ne_run (by simp [hfin.st])
    · exact hnext.loopInv (h.regsInv hinv)
  · rw [h.eq_of_st_ne_run hst]
    exact hloop

/-- The content invariant speaks of the core alone. -/
theorem LoopInv.withHost {s : State} (h : LoopInv s) (host : HostSide) : LoopInv { s with host := host } := by
  intro hst n x out hn hinput hout
  obtain ⟨hencode, hdecode⟩ := h hst n x out hn hinput hout
  refine ⟨fun hmode => ?_, fun hmode => ?_⟩
  · have g := hencode hmode
    exact ⟨g.valid, g.meaning, g.fresh, g.toCome⟩
  · have g := hdecode hmode
    exact ⟨g.meaning, g.toCome⟩

/-- The entry of a launch that is ready begins the operation (40_encode.md R102; 41_decode.md R132). -/
def Mode.entry : Mode → State → State
  | .encode => encodeEntry
  | .decode => decodeEntry

theorem Ready.operating_entry {m : Mode} {s : State} {n len : Nat} {x : List Byte} (h : Ready m s n x len)
    (heven : m = .decode → n % 2 = 0) : Operating m x (operationSteps m x) (m.entry s) := by
  obtain rfl : x.length = n := Memory.bytes_length h.input
  cases m with
  | encode => exact ⟨encodeEntry_encoding h, rfl⟩
  | decode => exact ⟨decodeEntry_decoding (heven rfl) h, (stepsLeft_decodeEntry x s).symm⟩

theorem HostStep.loopInv {s t : State} {a : HostMove} (h : HostStep s a t) (hinv : RegsInv s) (hloop : LoopInv s) :
    LoopInv t := by
  have hkept := h.regsInv hinv
  cases h with
  | ignoredStart | ignoredMode | ignoredIlen => exact hloop
  | reset | malformed => exact .of_st_ne_run (by simp)
  | writeMode _ hst | writeIlen _ hst | writeIbuf _ _ hst => exact .of_st_ne_run hst
  | encode hready =>
    have hop : Operating .encode _ _ _ := hready.awaitEnd.operating_entry nofun
    exact hop.loopInv hkept
  | decode heven hready =>
    have hop : Operating .decode _ _ _ := hready.awaitEnd.operating_entry fun _ => heven
    exact hop.loopInv hkept
  | read => exact hloop.withHost _
  | readStatus r =>
    obtain ⟨b, heq⟩ := seeStatus_eq (s.answer r)
    rw [heq]
    exact hloop.withHost _

/-- Settles O38: by the simulations, which every core step of an operation in progress keeps, and which the entry of a
launch begins. -/
theorem stepKeepsLoop : Obligations.StepKeepsLoop := by
  intro s t hinv hloop h
  obtain ⟨s0, hturn⟩ := step_next h
  obtain ⟨ht, hstep⟩ | ⟨a, ht, hstep⟩ := hturn
  · exact hstep.loopInv (turn_keeps RegsInv.withHost ht hinv) (turn_keeps LoopInv.withHost ht hloop)
  · exact hstep.loopInv (turn_keeps RegsInv.withHost ht hinv) (turn_keeps LoopInv.withHost ht hloop)

end Sys2Proof.Machine
end

section
/-! PROOFS. The platform's limits and their step (10_state.md R27; 70_reset_and_hazards.md R208, R209). -/

namespace Sys2Proof.Machine

/-- A length fits the platform's pointers and its room for output. -/
def fits (c : Config) (len : Nat) : Prop := fitsWidth c len = true ∧ fitsRoom c len = true

theorem fits_zero (c : Config) : fits c 0 := by
  obtain ⟨_ | w, _ | k, bases⟩ := c <;> simp [fits, fitsWidth, fitsRoom]

theorem fits_of_le {c : Config} {a b : Nat} (h : fits c b) (hle : a ≤ b) : fits c a := by
  obtain ⟨hwidth, hroom⟩ := h
  obtain ⟨lenw, ocap, bases⟩ := c
  refine ⟨?_, ?_⟩
  · cases lenw with
    | none => rfl
    | some w => exact decide_eq_true (hle.trans_lt (of_decide_eq_true hwidth))
  · cases ocap with
    | none => rfl
    | some k => exact decide_eq_true (hle.trans (of_decide_eq_true hroom))

/-- In progress or ended, an operation has written no more than its result. -/
theorem Operating.wp_le {m : Mode} {x : List Byte} {k : Nat} {s : State} (h : Operating m x k s) :
    s.wp ≤ resultLen m x := by
  obtain ⟨-, -, -, -, out, rest, hout, hres⟩ := h.registers
  have hlen : out.length = s.wp := Memory.bytes_length hout
  rw [resultLen, ← hres, List.length_append]
  omega

theorem Finished.wp_eq {m : Mode} {x : List Byte} {t : State} (h : Finished m x t) : t.wp = resultLen m x :=
  (Memory.bytes_length h.out).symm

theorem CoreStep.limitInv {s t : State} (h : CoreStep s t) (hinv : RegsInv s) (hloop : LoopInv s)
    (hlim : LimitInv s) : LimitInv t := by
  by_cases hst : s.st = .run
  · obtain ⟨hmode, hilen, hibuf⟩ := h.inputs_eq
    obtain ⟨m, x, k, hop⟩ := hinv.exists_operating hloop hst
    obtain ⟨-, hm, hn, hinput, -⟩ := hop.registers
    have hwp : t.wp ≤ resultLen m x := by
      obtain ⟨-, hfin⟩ | ⟨j, -, hnext⟩ := hop.coreStep h
      · exact hfin.wp_eq.le
      · exact hnext.wp_le
    have hresult : fits s.cfg (resultLen m x) := hlim.result hst m _ x hm hn hinput
    refine ⟨?_, ?_, ?_⟩
    · rw [hilen, h.cfg_eq]; exact hlim.ilen_fits
    · rw [h.cfg_eq]; exact fits_of_le hresult hwp
    · simp only [hmode, hilen, h.cfg_eq, input_congr hibuf]; exact fun _ => hlim.result hst
  · rw [h.eq_of_st_ne_run hst]
    exact hlim

/-- The limits speak of the core alone. -/
theorem LimitInv.withHost {s : State} (h : LimitInv s) (host : HostSide) : LimitInv { s with host := host } :=
  ⟨h.ilen_fits, h.wp_fits, h.result⟩

/-- The entry of a launch that is ready keeps the limits, the result's length being one of its duties. -/
theorem Ready.limitInv_entry {m : Mode} {s : State} {n : Nat} {x : List Byte} (h : Ready m s n x (resultLen m x)) :
    LimitInv (m.entry s) := by
  have hfields : (m.entry s).mode = s.mode ∧ (m.entry s).ilen = s.ilen ∧ (m.entry s).ibuf = s.ibuf ∧
      (m.entry s).cfg = s.cfg ∧ (m.entry s).wp = 0 := by
    cases m <;> exact ⟨rfl, rfl, rfl, rfl, rfl⟩
  obtain ⟨hmode, hilen, hibuf, hcfg, hwp⟩ := hfields
  refine ⟨?_, ?_, ?_⟩
  · rw [hilen, hcfg, h.ilen]
    rintro k hk
    obtain rfl := Option.some.inj hk
    exact h.width
  · rw [hwp]
    exact fits_zero _
  · simp only [hmode, hilen, hcfg, input_congr hibuf, h.mode, h.ilen]
    rintro - m' n' y hm hn hy
    obtain rfl := Option.some.inj hm
    obtain rfl := Option.some.inj hn
    obtain rfl : x = y := Option.some.inj (h.input.symm.trans hy)
    exact ⟨h.lenFits, h.room⟩

theorem HostStep.limitInv {s t : State} {a : HostMove} (h : HostStep s a t) (hlim : LimitInv s) : LimitInv t := by
  cases h with
  | ignoredStart | ignoredMode | ignoredIlen => exact hlim
  | reset => exact ⟨nofun, fits_zero s.cfg, nofun⟩
  | writeMode _ hst | writeIbuf _ _ hst => exact ⟨hlim.ilen_fits, hlim.wp_fits, fun hrun => absurd hrun hst⟩
  | writeIlen n hst hfit =>
    refine ⟨fun k hk => ?_, hlim.wp_fits, fun hrun => absurd hrun hst⟩
    obtain rfl := Option.some.inj hk
    exact hfit
  | encode hready => exact Ready.limitInv_entry (m := .encode) hready.awaitEnd
  | decode _ hready => exact Ready.limitInv_entry (m := .decode) hready.awaitEnd
  | malformed => exact ⟨hlim.ilen_fits, fits_zero s.cfg, nofun⟩
  | read => exact hlim.withHost _
  | readStatus r =>
    obtain ⟨b, heq⟩ := seeStatus_eq (s.answer r)
    rw [heq]
    exact hlim.withHost _

/-- Settles O39: what is written is the beginning of the result (`Operating.wp_le`), whose length the launch has checked
(`Ready.limitInv_entry`). -/
theorem stepKeepsLimits : Obligations.StepKeepsLimits := by
  intro s t hinv hloop hlim h
  obtain ⟨s0, hturn⟩ := step_next h
  obtain ⟨ht, hstep⟩ | ⟨a, ht, hstep⟩ := hturn
  · exact hstep.limitInv (turn_keeps RegsInv.withHost ht hinv) (turn_keeps LoopInv.withHost ht hloop)
      (turn_keeps LimitInv.withHost ht hlim)
  · exact hstep.limitInv (turn_keeps LimitInv.withHost ht hlim)

/-- Settles O36: nothing is written and nothing runs at reset. -/
theorem invariantsAtReset : Obligations.InvariantsAtReset := by
  refine ⟨⟨Memory.wf_nil, Memory.wf_nil, by decide, fun _ => rfl, fun _ => rfl, rfl, nofun⟩, nofun, ?_⟩
  exact ⟨nofun, fits_zero Config.reference, nofun⟩

end Sys2Proof.Machine
end

section
/-! PROOFS. The launch and the record: what a step runs, where it is refused, and when an operation starts (42_control.md
R163, R168; 10_state.md R27, R44; 70_reset_and_hazards.md R203, R207, R208). -/

namespace Sys2Proof.Machine

/-- What a launch with every duty kept answers: the entry, or for a `DECODE` of odd length the error (41_decode.md R132). -/
def launched (m : Mode) (n : Nat) (s : State) : State :=
  if m = .decode ∧ n % 2 = 1 then raiseMalformedInput s else m.entry s

/-- The last check of a launch: a `DECODE` of odd length needs no room for a result (70_reset_and_hazards.md R208). -/
def launchOn (m : Mode) (s : State) (n : Nat) (x : List Byte) : Host.Outcome State Fault Refusal :=
  if m = .decode ∧ n % 2 = 1 then .next (raiseMalformedInput s) else launch (resultLen m x) (m.entry s)

/-- Outside `RUN`, the command that `MODE` selects is a launch on its operand, for both modes. -/
theorem exec_command_eq {m : Mode} {s : State} (hst : s.st ≠ .run) (hmode : s.mode = some m) :
    exec m.command s = withOperand s (launchOn m s) := by
  cases m with
  | encode =>
    simp only [exec, Mode.command, execEncode, hst, hmode, if_false, ne_eq, not_true]
    rfl
  | decode =>
    have hentry : launchOn .decode s = fun n e =>
        if oddLength n then .next (raiseMalformedInput s) else launch (expand e).length (decodeEntry s) := by
      funext n e
      simp [launchOn, oddLength, resultLen, result, Mode.entry]
    simp only [exec, Mode.command, execDecode, hst, hmode, if_false, ne_eq, not_true, hentry]

/-- Settles O10: each check of `withOperand`, then of `launchOn`, in its order. -/
theorem launchRefusals : Obligations.LaunchRefusals := by
  intro m s hst hmode
  rw [exec_command_eq hst hmode]
  refine ⟨fun hn => by simp [withOperand, hn], fun n hn => ⟨fun hw => by simp [withOperand, hn, hw],
    fun hw ho => by simp [withOperand, hn, hw, ho], fun hw ho => ⟨fun hx => ?_, fun x hx heven => ?_⟩⟩⟩
  · simp [withOperand, hn, hw, ho, hx]
  · have hlaunch : launchOn m s n x = launch (resultLen m x) (m.entry s) :=
      if_neg fun ⟨hdec, hodd⟩ => by have := heven hdec; omega
    have hcfg : (m.entry s).cfg = s.cfg := by cases m <;> rfl
    rw [withOperand_eq hn hw ho hx, hlaunch]
    exact ⟨fun hlen => by simp [launch, hcfg, hlen], fun hlen hroom => by simp [launch, hcfg, hlen, hroom]⟩

/-- Settles O9: the check of the input stands before that of the parity. -/
theorem oddDecodeNeedsWrittenInput : Obligations.OddDecodeNeedsWrittenInput := by
  intro s n _ hst hmode hn hx hw ho
  obtain ⟨-, hlength⟩ := launchRefusals .decode s hst hmode
  obtain ⟨-, -, hinput⟩ := hlength n hn
  obtain ⟨hunwritten, -⟩ := hinput hw ho
  exact hunwritten hx

/-- Settles O12: the inversions of the two commands, and `exec_encode_of_ready`, `exec_decode_of_ready`. -/
theorem commandsStartOnlyWhenReady : Obligations.CommandsStartOnlyWhenReady := by
  refine ⟨fun s hst => ⟨fun ⟨t, h⟩ => ?_, fun ⟨n, b, h⟩ => ⟨_, exec_encode_of_ready h⟩⟩,
    fun s hst => ⟨fun ⟨t, h, hrun⟩ => ?_, fun ⟨n, e, heven, h⟩ => ⟨_, exec_decode_of_ready heven h, rfl⟩⟩⟩
  · obtain ⟨hrun, -⟩ | ⟨n, b, hready, -⟩ := execEncode_next h
    · exact absurd hrun hst
    · exact ⟨n, b, hready⟩
  · obtain ⟨hrun', -⟩ | ⟨n, e, -, -, -, -, -, -, -, rfl⟩ | ⟨n, e, heven, hready, -⟩ := execDecode_next h
    · exact absurd hrun' hst
    · simp at hrun
    · exact ⟨n, e, heven, hready⟩

/-- Settles O5: `step_start`, `MODE` encoding its own command. -/
theorem stepRunsCommand : Obligations.StepRunsCommand := by
  intro s s0 m i rest ht hst hmode hdecode
  obtain rfl : m.command = i := by cases m <;> cases hdecode <;> rfl
  exact ⟨step_start ht hst hmode, turn_eq_tail ht⟩

/-- Settles O6: the guard of `D_READ` holds, and the two bytes under `RP` are those fetched. -/
theorem stepRunsRecord : Obligations.StepRunsRecord := by
  intro s s0 n v c i rest ht hst hmode hrem hn hlt hv hc hdecode
  have hguard : MicroStep.guard .dRead s0 = true := guard_dRead_iff.2 ⟨hst, hmode, hrem, n, hn, by omega⟩
  refine ⟨?_, turn_eq_tail ht⟩
  rw [step_of_guard ht hguard]
  simp [MicroStep.effect, hn, fetchRecord, State.recordBytes, hv, hlt, hc, hdecode]

/-- Settles O11: nothing else is tested before `MODE`. -/
theorem startWithoutModeRefused : Obligations.StartWithoutModeRefused := by
  intro s s0 ht hst hmode
  simp [step_act ht, fetchHost, fetchCommand, hst, hmode]

/-- Settles O13: `readRecord_eq`. -/
theorem pairCompletes : Obligations.PairCompletes :=
  fun v c _ _ hst hmode hrem hn hlt => readRecord_eq v c hst hmode hrem hn hlt

end Sys2Proof.Machine
end

section
/-! PROOFS. The host's writes and reads (42_control.md R161, R162, R165, R170; 20_memory.md R65; logs 17, 18, 20, 22). -/

namespace Sys2Proof.Machine

/-- Settles O55: `H_WRITE_MODE` and `H_WRITE_ILEN` outside `RUN`. -/
theorem hostWritesOutsideRun : Obligations.HostWritesOutsideRun := by
  refine ⟨fun s s0 m ht hst => ?_, fun s s0 n ht hst hfit => ?_, fun s s0 n ht hst hfit => ?_⟩
  · simp [step_act ht, fetchHost, hWriteMode, hst]
  · simp [step_act ht, fetchHost, hWriteIlen, hst, hfit]
  · simp [step_act ht, fetchHost, hWriteIlen, hfit]

theorem step_read {s s0 : State} {r : Item} (ht : s.turn = (.act (.read r), s0)) : step s = hRead r s0 :=
  step_act ht

/-- Reading `ST` records its code, and changes of the host's side nothing else but that the end has been seen. -/
theorem readStatus_effect (s : State) (v : Nat) :
    (s.answer (.item .st v)).seeStatus =
      { s.answer (.item .st v) with host := (s.answer (.item .st v)).seeStatus.host } ∧
    (s.answer (.item .st v)).seeStatus.host.moves = s.host.moves ∧
    (s.answer (.item .st v)).seeStatus.host.seen = s.host.seen ++ [.item .st v] ∧
    ((s.answer (.item .st v)).seeStatus.host.awaiting = true ↔
      s.host.awaiting = true ∧ s.st ≠ .done ∧ s.st ≠ .error) := by
  obtain ⟨b, heq⟩ := seeStatus_eq (s.answer (.item .st v))
  refine ⟨?_, ?_, ?_, seeStatus_awaiting _⟩ <;> rw [heq] <;> rfl

/-- Settles O57: `H_READ` of each item; of `ST`, `readStatus_effect`. -/
theorem hostReads : Obligations.HostReads := by
  intro s s0 r ht
  rw [step_read ht]
  refine ⟨?_, ?_, ?_, ?_, ?_, ?_, ?_, ?_⟩
  · rintro rfl m hm
    cases m <;> simp [hRead, hm, Mode.code]
  · rintro rfl n hn
    simp [hRead, hn]
  · rintro rfl
    cases hst : s0.st <;> exact ⟨_, by rw [hRead, hst]; rfl, hst ▸ readStatus_effect s0 _⟩
  · rintro rfl
    cases herr : s0.errcode <;> simp [hRead, herr, ErrCode.code]
  · rintro rfl
    rfl
  · rintro rfl hm
    simp [hRead, hm]
  · rintro rfl hn
    simp [hRead, hn]
  · rintro rfl
    rfl

/-- Settles O58: the buffers are free (`buffersHeld_eq_false`); `Memory.read_write` for the write; the bytes of a result
are written under the register invariant. -/
theorem hostBufferAccess : Obligations.HostBufferAccess := by
  refine ⟨fun s s0 i v ht hst hseen => ?_, fun s s0 i ht hst hseen => ?_, fun s s0 i ht hinv hst hseen hlt => ?_⟩
  · have hfree := buffersHeld_eq_false.2 ⟨hst, hseen⟩
    refine ⟨fun hfit => ⟨s0.ibuf.write i v, ?_, Memory.read_write_self .., fun a => Memory.read_write_of_ne _ v⟩,
      fun hfit => ?_⟩ <;> simp [step_act ht, fetchHost, hWriteIbuf, hfree, hfit]
  · have hfree := buffersHeld_eq_false.2 ⟨hst, hseen⟩
    refine ⟨fun hfit => ⟨fun v hv => ?_, fun hnone => ?_⟩, fun hfit => ?_⟩
    · simp [step_act ht, fetchHost, hReadIbuf, hfree, hfit, hv]
    · simp [step_act ht, fetchHost, hReadIbuf, hfree, hfit, hnone]
    · simp [step_act ht, fetchHost, hReadIbuf, hfree, hfit]
  · have hfree := buffersHeld_eq_false.2 ⟨by simp [hst], hseen⟩
    obtain ⟨out, hout⟩ := Option.isSome_iff_exists.1 hinv.written
    obtain ⟨v, hv⟩ := Memory.exists_read_of_bytes hout hlt
    exact ⟨v, hv, by simp [step_act ht, fetchHost, hReadObuf, hfree, hst, hlt, hv]⟩

theorem buffersHeld_eq_true {s : State} : s.buffersHeld = true ↔ s.st = .run ∨ s.host.awaiting = true := by
  simp [State.buffersHeld]

/-- Settles O59: the buffers are held (`buffersHeld_eq_true`); after that a byte that is no result. -/
theorem hostBufferRefusals : Obligations.HostBufferRefusals := by
  refine ⟨fun s s0 a ht hheld ha => ?_, fun s s0 i ht hst hseen hno => ?_⟩
  · have hheld := buffersHeld_eq_true.2 hheld
    obtain ⟨i, v, rfl⟩ | ⟨i, rfl⟩ | ⟨i, rfl⟩ := ha
    · simp [step_act ht, fetchHost, hWriteIbuf, hheld]
    · simp [step_act ht, fetchHost, hReadObuf, hheld]
    · simp [step_act ht, fetchHost, hReadIbuf, hheld]
  · have hfree := buffersHeld_eq_false.2 ⟨hst, hseen⟩
    have hresult : ¬ (s0.st = .done ∧ i < s0.wp) := by
      rintro ⟨hdone, hlt⟩
      obtain hno | hno := hno
      · exact hno hdone
      · omega
    simp [step_act ht, fetchHost, hReadObuf, hfree, hresult]

end Sys2Proof.Machine
end

section
/-! PROOFS. The round trip on the machine (41_decode.md R147); and that an operation ends, whatever harmless turns the
host takes meanwhile (70_reset_and_hazards.md R216; 42_control.md R164, R168 H9, H10). -/

namespace Sys2Proof.Machine

/-- Settles O49: both refinements, with `expand_enc` between them. -/
theorem roundTripOnMachine : Obligations.RoundTripOnMachine := by
  intro s s0 n b ht hmoves h
  obtain ⟨-, t, hrun, hst, -, -, hout, -⟩ := encodeRefinesEnc s s0 n b ht hmoves h
  refine ⟨_, t, enc b, hrun, hst, hout, fun r r0 htr hmovesr hr => ?_⟩
  obtain ⟨heven, -⟩ := encIsValid b
  have hready : Ready .decode r0 (enc b).length (enc b) (expand (enc b)).length := by rwa [expand_enc]
  obtain ⟨-, u, hrunr, hstu, herr, houtu, -⟩ := decode_even_refines htr hmovesr heven hready
  exact ⟨_, u, hrunr, hstu, herr, by rw [houtu, expand_enc]⟩

/-- A harmless turn of the host, taken while an operation runs, takes one off the list and changes nothing of the core. -/
theorem step_harmless {s s0 : State} {a : HostMove} {m : Mode} {n : Nat} (ht : s.turn = (.act a, s0))
    (ha : (Turn.act a).harmless s0.cfg = true) (hst : s0.st = .run) (hmode : s0.mode = some m) (hn : s0.ilen = some n) :
    ∃ host, step s = .next { s0 with host := host } ∧ host.moves = s0.host.moves := by
  obtain ⟨hignored, -⟩ := hostIgnoredInRun
  cases a with
  | start => exact ⟨s0.host, hignored s s0 _ ht hst (.inl rfl), rfl⟩
  | writeMode k => exact ⟨s0.host, hignored s s0 _ ht hst (.inr (.inl ⟨k, rfl⟩)), rfl⟩
  | writeIlen k => exact ⟨s0.host, hignored s s0 _ ht hst (.inr (.inr ⟨k, rfl, ha⟩)), rfl⟩
  | read r =>
    rw [step_read ht]
    cases r with
    | mode =>
      have hread : hRead .mode s0 = .next (s0.answer (.item .mode m.code.toNat)) := by simp [hRead, hmode]
      exact ⟨_, hread, rfl⟩
    | ilen =>
      have hread : hRead .ilen s0 = .next (s0.answer (.item .ilen n)) := by simp [hRead, hn]
      exact ⟨_, hread, rfl⟩
    | errcode | olen => exact ⟨_, rfl, rfl⟩
    | st =>
      obtain ⟨hcore, hmoves, -⟩ := readStatus_effect s0 s0.st.code
      exact ⟨_, congrArg Host.Outcome.next hcore, hmoves⟩
    | start => cases ha
  | reset | writeIbuf | readObuf | readIbuf => cases ha

/-- One turn of an operation in progress, among harmless ones: the core ends it or takes a step off it, or the host takes
a turn off its list. -/
theorem Operating.step_progress {m : Mode} {x : List Byte} {k : Nat} {s : State} (h : Operating m x k s)
    (hharmless : ∀ t ∈ s.host.moves, t.harmless s.cfg = true) :
    ∃ u, step s = .next u ∧ (Finished m x u ∨ (∀ t ∈ u.host.moves, t.harmless u.cfg = true) ∧
      ∃ j, Operating m x j u ∧ u.host.moves.length + j < s.host.moves.length + k) := by
  cases hturn : s.turn with
  | mk turn s0 =>
    have h0 : Operating m x k s0 := turn_keeps Operating.withHost hturn h
    obtain ⟨-, -, -, -, -, -, -, -, -, -, -, -, hcfg, -⟩ := turn_fields hturn
    rw [← hcfg] at hharmless
    cases turn with
    | core =>
      have hmoves : (∀ t ∈ s0.host.moves, t.harmless s0.cfg = true) ∧
          s0.host.moves.length ≤ s.host.moves.length := by
        obtain ⟨-, -, rfl⟩ | hcons := turn_moves hturn
        · exact ⟨hharmless, le_rfl⟩
        · rw [hcons] at hharmless ⊢
          exact ⟨fun t ht => hharmless t (List.mem_cons_of_mem _ ht), by simp⟩
      obtain ⟨hrest, hlen⟩ := hmoves
      obtain ⟨u, hstep, hu⟩ := h0.exists_coreStep
      refine ⟨u, step_of_coreStep hturn hstep, ?_⟩
      obtain ⟨-, hfin⟩ | ⟨j, rfl, hnext⟩ := hu
      · exact .inl hfin
      · rw [hstep.host_eq, hstep.cfg_eq]
        exact .inr ⟨hrest, j, hnext, by omega⟩
    | act a =>
      obtain ⟨-, hcore, -⟩ | hcons := turn_moves hturn
      · cases hcore
      rw [hcons] at hharmless ⊢
      obtain ⟨ha, hrest⟩ := List.forall_mem_cons.1 hharmless
      obtain ⟨hst, hmode, hn, -⟩ := h0.registers
      obtain ⟨host, hstep, hmoves⟩ := step_harmless hturn ha hst hmode hn
      refine ⟨_, hstep, .inr ⟨?_, k, h0.withHost host, ?_⟩⟩
      · simp only [hmoves]; exact hrest
      · simp only [hmoves, List.length_cons]; omega

/-- An operation in progress ends within as many steps as the host has turns and the core steps left. -/
theorem Operating.finishes {m : Mode} {x : List Byte} {k : Nat} {s : State} (h : Operating m x k s)
    (hharmless : ∀ t ∈ s.host.moves, t.harmless s.cfg = true) :
    ∃ j t, j ≤ s.host.moves.length + k ∧ runN j s = .next t ∧ Finished m x t := by
  induction hN : s.host.moves.length + k using Nat.strong_induction_on generalizing s k with
  | _ N ih =>
    obtain ⟨u, hstep, hu⟩ := h.step_progress hharmless
    obtain hfin | ⟨hrest, i, hnext, hlt⟩ := hu
    · have hpos : 1 ≤ k := by obtain ⟨-, -, ⟨rfl, -⟩ | ⟨j, rfl, -⟩⟩ := h.exists_coreStep <;> omega
      exact ⟨1, u, by omega, runN_succ_of_next hstep 0, hfin⟩
    · obtain ⟨j, t, hj, hrun, hfin⟩ := ih _ (hN ▸ hlt) hnext hrest rfl
      exact ⟨j + 1, t, by omega, (runN_succ_of_next hstep j).trans hrun, hfin⟩

/-- Settles O51: the start begins the operation, which `Operating.finishes`. -/
theorem operationEndsDespiteHost : Obligations.OperationEndsDespiteHost := by
  intro m s s0 n x ht h heven hharmless
  have hstart : step s = .next (m.entry s0.awaitEnd) := by
    cases m with
    | encode => exact step_start_encode ht h
    | decode => exact step_start_decode ht (heven rfl) h
  have hhost : (m.entry s0.awaitEnd).host.moves = s0.host.moves ∧ (m.entry s0.awaitEnd).cfg = s0.cfg := by
    cases m <;> exact ⟨rfl, rfl⟩
  obtain ⟨hmoves, hcfg⟩ := hhost
  have hop := h.awaitEnd.operating_entry heven
  rw [← hmoves, ← hcfg] at hharmless
  obtain ⟨j, t, hj, hrun, hfin⟩ := hop.finishes hharmless
  rw [hmoves] at hj
  exact ⟨j + 1, t, by omega, (runN_succ_of_next hstart j).trans hrun, hfin.st, hfin.errcode, hfin.out⟩

end Sys2Proof.Machine
end

section
/-! PROOFS. What the host sees of an operation depends on `MODE`, `ILEN`, the input and the parameters alone (10_state.md R42;
20_memory.md R53): two machines that agree on these move alike. -/

namespace Sys2Proof.Machine

/-- Two machines agree on all that the operation in progress, and the host at its end, can see. -/
structure Alike (s r : State) : Prop where
  mode    : r.mode = s.mode
  ilen    : r.ilen = s.ilen
  st      : r.st = s.st
  errcode : r.errcode = s.errcode
  rp      : r.rp = s.rp
  wp      : r.wp = s.wp
  pair    : s.mode = some .encode → r.cnt = s.cnt ∧ (s.cnt ≠ 0#8 → r.curByte = s.curByte)
  copies  : s.mode = some .decode → r.rem = s.rem ∧ (s.rem ≠ 0#8 → r.valByte = s.valByte)
  ibuf    : ∀ n, s.ilen = some n → ∀ i, i < n → r.ibuf.read i = s.ibuf.read i
  obuf    : ∀ i, i < s.wp → r.obuf.read i = s.obuf.read i

/-- Memories that read alike below `n` have the same bytes there. -/
theorem Memory.bytes_congr {m k : Memory} {n : Nat} (h : ∀ i, i < n → k.read i = m.read i) : k.bytes n = m.bytes n := by
  refine Option.ext fun l => ?_
  rw [Memory.bytes_eq_some_iff, Memory.bytes_eq_some_iff]
  exact and_congr_right fun _ => forall₂_congr fun i hi => by rw [h i hi]

theorem Memory.read_write_congr {m k : Memory} {n : Nat} (h : ∀ i, i < n → k.read i = m.read i) (v : Byte) :
    ∀ i, i < n + 1 → (k.write n v).read i = (m.write n v).read i := by
  intro i hi
  obtain rfl | hlt : i = n ∨ i < n := by omega
  · rw [Memory.read_write_self, Memory.read_write_self]
  · rw [Memory.read_write_of_ne _ _ hlt.ne, Memory.read_write_of_ne _ _ hlt.ne, h i hlt]

theorem Alike.visible_eq {s r : State} (h : Alike s r) : s.visible = r.visible := by
  have hout : r.out = s.out := by
    rw [State.out, State.out, h.wp]
    exact Memory.bytes_congr h.obuf
  rw [State.visible, State.visible, h.st, h.errcode, h.wp, hout]

/-- Alike machines take the same core step and stay alike. -/
theorem CoreStep.alike {s r t : State} (hstep : CoreStep s t) (h : Alike s r) : ∃ u, CoreStep r u ∧ Alike t u := by
  have hrp := h.rp
  have hwp := h.wp
  cases hstep with
  | idle hst => exact ⟨r, .idle (h.st ▸ hst), h⟩
  | @eOpen n x hst hmode hn hlt hcnt hx =>
    obtain ⟨hcnteq, -⟩ := h.pair hmode
    refine ⟨_, .eOpen (h.st.trans hst) (h.mode.trans hmode) (h.ilen.trans hn) (hrp ▸ hlt) (hcnteq.trans hcnt)
      (by rw [hrp, h.ibuf n hn _ hlt, hx]), ?_⟩
    exact ⟨h.mode, h.ilen, h.st, h.errcode, by simp [hrp], hwp, fun _ => ⟨rfl, fun _ => rfl⟩, h.copies, h.ibuf, h.obuf⟩
  | @eExtend n hst hmode hn hlt hcnt hx hfull =>
    obtain ⟨hcnteq, hcur⟩ := h.pair hmode
    refine ⟨_, .eExtend (h.st.trans hst) (h.mode.trans hmode) (h.ilen.trans hn) (hrp ▸ hlt) (hcnteq ▸ hcnt)
      (by rw [hrp, h.ibuf n hn _ hlt, hx, hcur hcnt]) (hcnteq ▸ hfull), ?_⟩
    exact ⟨h.mode, h.ilen, h.st, h.errcode, by simp [hrp], hwp, fun _ => ⟨by simp [hcnteq], fun _ => hcur hcnt⟩,
      h.copies, h.ibuf, h.obuf⟩
  | @eFlush n x hst hmode hn hlt hcnt hx hdiff =>
    obtain ⟨hcnteq, hcur⟩ := h.pair hmode
    have hcur := hcur hcnt
    refine ⟨_, .eFlush (h.st.trans hst) (h.mode.trans hmode) (h.ilen.trans hn) (hrp ▸ hlt) (hcnteq ▸ hcnt)
      (by rw [hrp, h.ibuf n hn _ hlt, hx]) (by rwa [hcur, hcnteq]), ?_⟩
    refine ⟨h.mode, h.ilen, h.st, h.errcode, by simp [hrp], by simp [hwp], fun _ => ⟨rfl, fun _ => rfl⟩,
      h.copies, h.ibuf, ?_⟩
    simp only [hwp, hcur, hcnteq]
    exact Memory.read_write_congr (Memory.read_write_congr h.obuf _) _
  | @eFinalEmpty n hst hmode hn heq hcnt =>
    obtain ⟨hcnteq, -⟩ := h.pair hmode
    refine ⟨_, .eFinalEmpty (h.st.trans hst) (h.mode.trans hmode) (h.ilen.trans hn) (hrp.trans heq)
      (hcnteq.trans hcnt), ?_⟩
    exact ⟨h.mode, h.ilen, rfl, h.errcode, hrp, hwp, fun _ => ⟨rfl, fun hopen => absurd rfl hopen⟩, h.copies, h.ibuf,
      h.obuf⟩
  | @eFinalFlush n hst hmode hn heq hcnt =>
    obtain ⟨hcnteq, hcur⟩ := h.pair hmode
    have hcur := hcur hcnt
    refine ⟨_, .eFinalFlush (h.st.trans hst) (h.mode.trans hmode) (h.ilen.trans hn) (hrp.trans heq) (hcnteq ▸ hcnt), ?_⟩
    refine ⟨h.mode, h.ilen, rfl, h.errcode, hrp, by simp [hwp], fun _ => ⟨rfl, fun hopen => absurd rfl hopen⟩,
      h.copies, h.ibuf, ?_⟩
    simp only [hwp, hcur, hcnteq]
    exact Memory.read_write_congr (Memory.read_write_congr h.obuf _) _
  | @dRead n v c hst hmode hn hlt hrem hv hc =>
    obtain ⟨hremeq, -⟩ := h.copies hmode
    refine ⟨_, .dRead (h.st.trans hst) (h.mode.trans hmode) (h.ilen.trans hn) (hrp ▸ hlt) (hremeq.trans hrem)
      (by rw [hrp, h.ibuf n hn _ (by omega), hv]) (by rw [hrp, h.ibuf n hn _ hlt, hc]), ?_⟩
    exact ⟨h.mode, h.ilen, h.st, h.errcode, by simp [hrp], hwp, h.pair, fun _ => ⟨rfl, fun _ => rfl⟩, h.ibuf, h.obuf⟩
  | dEmit hst hmode hrem =>
    obtain ⟨hremeq, hval⟩ := h.copies hmode
    have hval := hval hrem
    refine ⟨_, .dEmit (h.st.trans hst) (h.mode.trans hmode) (hremeq ▸ hrem), ?_⟩
    refine ⟨h.mode, h.ilen, h.st, h.errcode, hrp, by simp [hwp], h.pair, fun _ => ⟨by simp [hremeq], fun _ => hval⟩,
      h.ibuf, ?_⟩
    simp only [hwp, hval]
    exact Memory.read_write_congr h.obuf _
  | @dFinal n hst hmode hn heq hrem =>
    obtain ⟨hremeq, -⟩ := h.copies hmode
    refine ⟨_, .dFinal (h.st.trans hst) (h.mode.trans hmode) (h.ilen.trans hn) (hrp.trans heq) (hremeq.trans hrem), ?_⟩
    exact ⟨h.mode, h.ilen, rfl, h.errcode, hrp, hwp, h.pair, h.copies, h.ibuf, h.obuf⟩

/-- The core has nothing to do, or an operation in progress: it never stops. -/
def Live (s : State) : Prop := s.st ≠ .run ∨ ∃ m x k, Operating m x k s

theorem Live.exists_coreStep {s : State} (h : Live s) : ∃ t, CoreStep s t ∧ Live t := by
  obtain hst | ⟨m, x, k, hop⟩ := h
  · exact ⟨s, .idle hst, .inl hst⟩
  · obtain ⟨t, hstep, ⟨-, hfin⟩ | ⟨j, -, hnext⟩⟩ := hop.exists_coreStep
    · exact ⟨t, hstep, .inl (by simp [hfin.st])⟩
    · exact ⟨t, hstep, .inr ⟨m, x, j, hnext⟩⟩

/-- With both hosts silent, alike machines stay alike step by step. -/
theorem Alike.runN {s r : State} (h : Alike s r) (hlive : Live s) (hs : s.host.moves = []) (hr : r.host.moves = [])
    (k : Nat) : ∃ t u, runN k s = .next t ∧ runN k r = .next u ∧ Alike t u := by
  induction k generalizing s r with
  | zero => exact ⟨s, r, rfl, rfl, h⟩
  | succ k ih =>
    obtain ⟨t, hstept, hlivet⟩ := hlive.exists_coreStep
    obtain ⟨u, hstepu, halike⟩ := hstept.alike h
    rw [runN_succ_of_next (step_of_coreStep (turn_nil hs) hstept),
      runN_succ_of_next (step_of_coreStep (turn_nil hr) hstepu)]
    exact ih halike hlivet (by rw [hstept.host_eq, hs]) (by rw [hstepu.host_eq, hr])

/-- Two launches that agree on `MODE`, `ILEN`, the input and the parameters. -/
structure SameLaunch (m : Mode) (n : Nat) (s r : State) : Prop where
  idle  : s.st ≠ .run ∧ r.st ≠ .run
  mode  : s.mode = some m ∧ r.mode = some m
  ilen  : s.ilen = some n ∧ r.ilen = some n
  cfg   : r.cfg = s.cfg
  ibuf  : ∀ i, i < n → r.ibuf.read i = s.ibuf.read i

/-- They answer states that are alike, which either run the operation or have nothing to do. -/
theorem SameLaunch.launched_alike {m : Mode} {n : Nat} {s r : State} (h : SameLaunch m n s r) :
    Alike (launched m n s) (launched m n r) := by
  obtain ⟨hms, hmr⟩ := h.mode
  obtain ⟨hns, hnr⟩ := h.ilen
  have hmode := hmr.trans hms.symm
  have hilen := hnr.trans hns.symm
  have hibuf : ∀ k, s.ilen = some k → ∀ i, i < k → r.ibuf.read i = s.ibuf.read i := by
    intro k hk
    obtain rfl := Option.some.inj (hns.symm.trans hk)
    exact h.ibuf
  unfold launched
  split
  · next hodd =>
    obtain ⟨rfl, -⟩ := hodd
    exact ⟨hmode, hilen, rfl, rfl, rfl, rfl, fun henc => by simp [hms] at henc,
      fun _ => ⟨rfl, fun hcopy => absurd rfl hcopy⟩, hibuf, nofun⟩
  · cases m with
    | encode =>
      exact ⟨hmode, hilen, rfl, rfl, rfl, rfl, fun _ => ⟨rfl, fun hopen => absurd rfl hopen⟩,
        fun hdec => by simp [Mode.entry, hms] at hdec, hibuf, nofun⟩
    | decode =>
      exact ⟨hmode, hilen, rfl, rfl, rfl, rfl, fun henc => by simp [Mode.entry, hms] at henc,
        fun _ => ⟨rfl, fun hcopy => absurd rfl hcopy⟩, hibuf, nofun⟩

/-- The last check of a launch, for both: it looks at the parameters, the length and the input alone. -/
theorem SameLaunch.launchOn_alike {m : Mode} {n : Nat} {s r : State} {x : List Byte} (h : SameLaunch m n s r)
    (hw : fitsWidth s.cfg n = true) (ho : buffersOverlap s.cfg n = false) (hx : s.input n = some x) :
    (launchOn m s n x = .next (launched m n s) ∧ launchOn m r n x = .next (launched m n r) ∧
      Live (launched m n s)) ∨
    ∃ y, launchOn m s n x = .refused y ∧ launchOn m r n x = .refused y := by
  obtain ⟨hids, -⟩ := h.idle
  obtain ⟨hms, -⟩ := h.mode
  obtain ⟨hns, -⟩ := h.ilen
  by_cases hodd : m = .decode ∧ n % 2 = 1
  · have hlaunched : ∀ q, launched m n q = raiseMalformedInput q := fun q => if_pos hodd
    have hlaunchOn : ∀ q, launchOn m q n x = .next (raiseMalformedInput q) := fun q => if_pos hodd
    rw [hlaunchOn, hlaunchOn, hlaunched, hlaunched]
    exact .inl ⟨rfl, rfl, .inl (by simp)⟩
  · have hlaunched : ∀ q, launched m n q = m.entry q := fun q => if_neg hodd
    have hlaunchOn : ∀ q, launchOn m q n x = launch (resultLen m x) (m.entry q) := fun q => if_neg hodd
    rw [hlaunchOn, hlaunchOn, hlaunched, hlaunched]
    have hcfgs : (m.entry s).cfg = s.cfg := by cases m <;> rfl
    have hcfgr : (m.entry r).cfg = s.cfg := by cases m <;> exact h.cfg
    cases hlen : fitsWidth s.cfg (resultLen m x) with
    | false => exact .inr ⟨.pointerWidth, by simp [launch, hcfgs, hlen], by simp [launch, hcfgr, hlen]⟩
    | true =>
      cases hroom : fitsRoom s.cfg (resultLen m x) with
      | false => exact .inr ⟨.outputRoom, by simp [launch, hcfgs, hlen, hroom], by simp [launch, hcfgr, hlen, hroom]⟩
      | true =>
        have hready : Ready m s n x (resultLen m x) := ⟨hids, hms, hns, hx, hw, ho, hlen, hroom⟩
        have hop := hready.operating_entry fun hdec => by
          have hparity := not_and.1 hodd hdec
          omega
        exact .inl ⟨by simp [launch, hcfgs, hlen, hroom], by simp [launch, hcfgr, hlen, hroom], .inr ⟨m, x, _, hop⟩⟩

/-- Outside `RUN` two launches that agree are refused alike, or both answer what a launch answers; then the core never
stops. -/
theorem SameLaunch.exec_alike {m : Mode} {n : Nat} {s r : State} (h : SameLaunch m n s r) :
    (exec m.command s = .next (launched m n s) ∧ exec m.command r = .next (launched m n r) ∧ Live (launched m n s)) ∨
    ∃ x, exec m.command s = .refused x ∧ exec m.command r = .refused x := by
  obtain ⟨hids, hidr⟩ := h.idle
  obtain ⟨hms, hmr⟩ := h.mode
  obtain ⟨hns, hnr⟩ := h.ilen
  have hinput : r.input n = s.input n := Memory.bytes_congr h.ibuf
  rw [exec_command_eq hids hms, exec_command_eq hidr hmr]
  cases hw : fitsWidth s.cfg n with
  | false => exact .inr ⟨.pointerWidth, by simp [withOperand, hns, hw], by simp [withOperand, hnr, h.cfg, hw]⟩
  | true =>
    cases ho : buffersOverlap s.cfg n with
    | true =>
      exact .inr ⟨.buffersOverlap, by simp [withOperand, hns, hw, ho], by simp [withOperand, hnr, h.cfg, hw, ho]⟩
    | false =>
      cases hx : s.input n with
      | none =>
        exact .inr ⟨.inputUnwritten, by simp [withOperand, hns, hw, ho, hx],
          by simp [withOperand, hnr, h.cfg, hw, ho, hinput, hx]⟩
      | some x =>
        rw [withOperand_eq hns hw ho hx, withOperand_eq hnr (h.cfg ▸ hw) (h.cfg ▸ ho) (hinput.trans hx)]
        exact h.launchOn_alike hw ho hx

theorem runN_succ_of_refused {s : State} {x : Refusal} (h : step s = .refused x) (k : Nat) :
    runN (k + 1) s = .refused x := by
  simp [runN, h]

theorem launched_moves (m : Mode) (n : Nat) (s : State) : (launched m n s).host.moves = s.host.moves := by
  unfold launched
  split
  · rfl
  · cases m <;> rfl

/-- Settles O52: the two launches answer alike (`SameLaunch.exec_alike`), and what follows stays alike (`Alike.runN`). -/
theorem resultDependsOnInputOnly : Obligations.ResultDependsOnInputOnly := by
  intro s r s0 r0 n hts htr hsilents hsilentr hidles hidler hmode hns hnr hcfg hibuf k
  cases hm : s0.mode with
  | none =>
    have hrefuses := startWithoutModeRefused s s0 hts hidles hm
    have hrefuser := startWithoutModeRefused r r0 htr hidler (hmode.symm.trans hm)
    exact .inr ⟨_, runN_succ_of_refused hrefuses k, runN_succ_of_refused hrefuser k⟩
  | some m =>
    have hmr := hmode.symm.trans hm
    have hsame : SameLaunch m n s0.awaitEnd r0.awaitEnd :=
      ⟨⟨hidles, hidler⟩, ⟨hm, hmr⟩, ⟨hns, hnr⟩, hcfg.symm, fun i hi => (hibuf i hi).symm⟩
    obtain ⟨hs, hr, hlive⟩ | ⟨x, hs, hr⟩ := hsame.exec_alike
    · obtain ⟨t, u, hrunt, hrunu, halike⟩ := hsame.launched_alike.runN hlive
        ((launched_moves m n _).trans hsilents) ((launched_moves m n _).trans hsilentr) k
      exact .inl ⟨t, u, (runN_succ_of_next ((step_start hts hidles hm).trans hs) k).trans hrunt,
        (runN_succ_of_next ((step_start htr hidler hmr).trans hr) k).trans hrunu, halike.visible_eq⟩
    · exact .inr ⟨x, runN_succ_of_refused ((step_start hts hidles hm).trans hs) k,
        runN_succ_of_refused ((step_start htr hidler hmr).trans hr) k⟩

end Sys2Proof.Machine
end
